-- ==== Sys2Proof/Word.lean ====
section
/-! DEFINITION. The bit-vector types of the block and nothing else: a segment byte, a 32-bit word (cursor, `ARG`, `COUNT`),
a 64-bit command, an element. Spec: 10_state.md R20, 30_encoding.md R61, R64. -/

namespace Sys2Proof

/-- One byte of the segment (20_memory.md R40). -/
abbrev Byte := BitVec 8

/-- A 32-bit value: a cursor (10_state.md R21, R22), the field `ARG` (30_encoding.md R61), the field `COUNT` (R64). -/
abbrev Word := BitVec 32

/-- A `CMD64` command word (30_encoding.md R61). -/
abbrev Command := BitVec 64

/-- An element value on the data channels. An element has `W = 8E ≤ 64` bits (00_scope.md R6, R7) and is held
zero-extended; a write-data element with a bit above `W` is no element of the block and is refused (assumption 7). -/
abbrev Elem := BitVec 64

end Sys2Proof
end

