-- ==== Sys2Proof/Syntax.lean ====
section
/-! DEFINITION. The ports, the commands and the transactions of the block: `Instr` has one constructor for each row of
spec/opcode_table.json (30_encoding.md R65). -/

namespace Sys2Proof

/-- The three ports, each driven by its own agent: producer, consumer, host (00_scope.md R9). -/
inductive Port where
  | P
  | C
  | H
  deriving DecidableEq, Repr

/-- A legal command (30_encoding.md R65). `ARG` is the constructor's argument; a zero-operand command (R67) has none.
The port and the write data belong to the transaction, not to the command word (R60, R70). -/
inductive Instr where
  /-- `NOP` (42_status.md R100). -/
  | nop
  /-- `PUSH len` (40_transfer.md R80). -/
  | push (len : Word)
  /-- `WSPAN amount` (41_span.md R90). -/
  | wspan (amount : Word)
  /-- `SPAN_WR j` (41_span.md R91). -/
  | spanWr (j : Word)
  /-- `SPAN_COMMIT` (41_span.md R92). -/
  | spanCommit
  /-- `POP len` (40_transfer.md R81). -/
  | pop (len : Word)
  /-- `EMPTY` (42_status.md R101). -/
  | empty
  /-- `FULL` (42_status.md R102). -/
  | full
  /-- `CAPACITY` (42_status.md R103). -/
  | capacity
  /-- `AVAIL_READ` (42_status.md R104). -/
  | availRead
  /-- `AVAIL_WRITE` (42_status.md R105). -/
  | availWrite
  /-- `ELEM_INFO` (42_status.md R106). -/
  | elemInfo
  /-- `ERR_STATUS` (42_status.md R107). -/
  | errStatus
  /-- `SEG_RD a` (43_host.md R115). -/
  | segRd (a : Word)
  /-- `RESET` (43_host.md R116). -/
  | reset
  deriving DecidableEq, Repr

/-- What a port presents in a cycle when it is not idle: a command word and the write-data channel (30_encoding.md R60). -/
structure Transaction where
  cmd : Command
  data : List Elem
  deriving DecidableEq, Repr

end Sys2Proof
end

