-- ==== Sys2Proof/Config.lean ====
section
/-! DEFINITION. What a realisation of the block fixes: its three parameters (00_scope.md R6), and the values the spec
leaves open, which have no body here (00_scope.md R11 `draw()`, 92_eei_decisions.md P4). -/

namespace Sys2Proof

/-- The parameters `CAP`, `ELEM_BYTES` and `ELEM_KIND` (00_scope.md R6), each an open parameter of the model
(92_eei_decisions.md P1 to P3). -/
structure Params where
  cap : Nat
  elemBytes : Nat
  elemKind : Nat
  deriving DecidableEq, Repr

/-- The parameters `State.reset` is built with: capacity 10 with 4-byte float elements, the source's own worked example
(95_test_vectors.md L1-1). DESIGN CHOICE (assumption 4), unsafe for a claim about `State.reset` alone: the spec leaves the
parameters open, so statements are made over every legal `Params`. -/
def Config.params : Params := { cap := 10, elemBytes := 4, elemKind := 1 }

/-- `draw()` (00_scope.md R11, 20_memory.md R43): the byte a port reads at a segment address whose slot is unset. A free
value: it has no body, and its second argument is the counter `State.draws`, which every executed command advances, so two
reads may differ (93_implementation_defined.md I2; assumption 1). -/
opaque Config.draw : Port → Nat → Nat → Byte

/-- `SEG_BASE`, the place of the segment in a system address map (92_eei_decisions.md P4, D31). No rule of the spec uses
it and nothing in the model does (assumption 12). -/
opaque Config.segBase : Nat

end Sys2Proof
end

