-- ==== Sys2Proof/WellFormed.lean ====
section
/-! DEFINITION. Which parameters make a block (00_scope.md R7) and which write data a command takes (30_encoding.md R60,
R63). Every term of `Instr` is a legal command by itself: its fields are 32-bit values, and the illegal encodings of
30_encoding.md R68 have no term. -/

namespace Sys2Proof

/-- The legal parameter values (00_scope.md R7). -/
def Params.legal (p : Params) : Bool :=
  decide (1 ≤ p.cap)
    && (p.elemBytes == 1 || p.elemBytes == 2 || p.elemBytes == 4 || p.elemBytes == 8)
    && (p.elemKind == 0 || (p.elemKind == 1 && (p.elemBytes == 4 || p.elemBytes == 8)))
    && decide (8 + (p.cap + 1) * p.elemBytes ≤ 2 ^ 32)

/-- How many write-data elements a command takes (30_encoding.md R63; "data_elements" of the opcode table). -/
def Instr.dataCount : Instr → Nat
  | .push len => len.toNat
  | .spanWr _ => 1
  | .nop => 0
  | .wspan _ => 0
  | .spanCommit => 0
  | .pop _ => 0
  | .empty => 0
  | .full => 0
  | .capacity => 0
  | .availRead => 0
  | .availWrite => 0
  | .elemInfo => 0
  | .errStatus => 0
  | .segRd _ => 0
  | .reset => 0

/-- A value fits an element of `e` bytes, that is of `W = 8e` bits (00_scope.md R6, 30_encoding.md R60). -/
def elemFits (e : Nat) (v : Elem) : Bool := decide (v.toNat < 2 ^ (8 * e))

/-- A command with its write data is well-formed on a block of `e`-byte elements: as many elements as the command takes,
each of them `W` bits wide. -/
def Instr.wellFormed (e : Nat) (data : List Elem) (i : Instr) : Bool :=
  decide (data.length = i.dataCount) && data.all (elemFits e)

end Sys2Proof
end

