-- ==== Sys2Proof/Decode.lean ====
section
/-! DEFINITION. The decoder of 30_encoding.md R70, total on every 64-bit word and rejecting by name, then the encoder of
R61 and R65, then the write-data length of R63, which the command word fixes for illegal words too. -/

namespace Sys2Proof

/-- Why a word is illegal (30_encoding.md R68). All three answer with the status `ILLEGAL`. -/
inductive DecodeError where
  /-- `OP` is none of the values of R65. -/
  | unassignedOpcode
  /-- `RSV ≠ 0`. -/
  | reservedNonzero
  /-- A zero-operand command (R67) with `ARG ≠ 0`. -/
  | operandNonzero
  deriving DecidableEq, Repr

/-- `OP = cmd[63:56]` (30_encoding.md R61). -/
def fieldOp (cmd : Command) : Byte := cmd.extractLsb' 56 8

/-- `RSV = cmd[55:32]` (30_encoding.md R61). -/
def fieldRsv (cmd : Command) : BitVec 24 := cmd.extractLsb' 32 24

/-- `ARG = cmd[31:0]` (30_encoding.md R61, R62). -/
def fieldArg (cmd : Command) : Word := cmd.extractLsb' 0 32

/-- The opcodes of R65 whose `ARG` is an operand. -/
def operandCommand (op : Nat) (arg : Word) : Option Instr :=
  match op with
  | 0x01 => some (.push arg)
  | 0x02 => some (.wspan arg)
  | 0x03 => some (.spanWr arg)
  | 0x08 => some (.pop arg)
  | 0x20 => some (.segRd arg)
  | _ => none

/-- The opcodes of R65 whose `ARG` must be zero (R67). -/
def zeroOperandCommand (op : Nat) : Option Instr :=
  match op with
  | 0x00 => some .nop
  | 0x04 => some .spanCommit
  | 0x10 => some .empty
  | 0x11 => some .full
  | 0x12 => some .capacity
  | 0x13 => some .availRead
  | 0x14 => some .availWrite
  | 0x15 => some .elemInfo
  | 0x16 => some .errStatus
  | 0x3F => some .reset
  | _ => none

/-- `Decode` (30_encoding.md R70), in its order: opcode, then `RSV`, then the operand of a zero-operand command. -/
def decode (cmd : Command) : Except DecodeError Instr :=
  match operandCommand (fieldOp cmd).toNat (fieldArg cmd) with
  | some i => if fieldRsv cmd = 0#24 then .ok i else .error .reservedNonzero
  | none =>
    match zeroOperandCommand (fieldOp cmd).toNat with
    | none => .error .unassignedOpcode
    | some i =>
      if fieldRsv cmd = 0#24 then
        if fieldArg cmd = 0#32 then .ok i else .error .operandNonzero
      else .error .reservedNonzero

/-- The opcode of a command (30_encoding.md R65). -/
def Instr.opcode : Instr → Byte
  | .nop => 0x00#8
  | .push _ => 0x01#8
  | .wspan _ => 0x02#8
  | .spanWr _ => 0x03#8
  | .spanCommit => 0x04#8
  | .pop _ => 0x08#8
  | .empty => 0x10#8
  | .full => 0x11#8
  | .capacity => 0x12#8
  | .availRead => 0x13#8
  | .availWrite => 0x14#8
  | .elemInfo => 0x15#8
  | .errStatus => 0x16#8
  | .segRd _ => 0x20#8
  | .reset => 0x3F#8

/-- The operand field of a command, zero for a zero-operand command (30_encoding.md R62, R67). -/
def Instr.operand : Instr → Word
  | .push len => len
  | .wspan amount => amount
  | .spanWr j => j
  | .pop len => len
  | .segRd a => a
  | .nop => 0#32
  | .spanCommit => 0#32
  | .empty => 0#32
  | .full => 0#32
  | .capacity => 0#32
  | .availRead => 0#32
  | .availWrite => 0#32
  | .elemInfo => 0#32
  | .errStatus => 0#32
  | .reset => 0#32

/-- The word of a command: `cmd = {OP, RSV, ARG}` with `RSV = 0` (30_encoding.md R61). -/
def encode (i : Instr) : Command := i.opcode ++ 0#24 ++ i.operand

/-- The write-data length a command word fixes, whether or not the word is legal: `ARG` for opcode `0x01`, 1 for opcode
`0x03`, 0 for every other opcode value (30_encoding.md R63). -/
def writeLength (cmd : Command) : Nat :=
  if fieldOp cmd = 0x01#8 then (fieldArg cmd).toNat
  else if fieldOp cmd = 0x03#8 then 1
  else 0

/-- The command word the host's opcode-table question means: the low `nbits` bits of `w`, zero above. Every command is
exactly one 64-bit word (30_encoding.md R69), so nothing wider is one. -/
def tableWord (nbits w : Nat) : Option Command :=
  if nbits ≤ 64 then some (BitVec.ofNat 64 (w % 2 ^ nbits)) else none

/-- What the decoder reads from a word of the opcode table. -/
def decodeTableWord (nbits w : Nat) : Option Instr :=
  match tableWord nbits w with
  | none => none
  | some cmd => (decode cmd).toOption

end Sys2Proof
end

