-- ==== Sys2Proof/Machine/State.lean ====
section
/-! DEFINITION. The state of the block as plain data (10_state.md R20), with the model's own interface fields (the agents'
sequences, the transaction being executed, the responses, the free-value counter), why a step can stop, and the state after
power-on (70_reset_and_hazards.md R141, R142). -/

namespace Sys2Proof.Machine

/-- Why the machine stops with a fault: never. The block has no traps and "never halts or locks up after an error"
(60_exceptions.md R124, R127); a protocol error is a next state, so no rule of the spec raises a fault. -/
inductive Fault where
  deriving DecidableEq, Repr

/-- Why a step gives no next state. None of these is about what a command does; each says that what was presented is not
a transaction, a block or a session of the spec. -/
inductive Refusal where
  /-- The refused arms of `exec` while an instruction had no meaning; no arm raises it now. Safe. -/
  | notModelled (mnemonic : String)
  /-- The boundary check of a cycle, and every meaning: the write data has not the length the command word fixes, so it is
  no transaction of the block (30_encoding.md R63). Safe: the spec asks for this refusal. -/
  | dataLength
  /-- The boundary check of a cycle, and every meaning: a write-data element has a bit above `W` (30_encoding.md R60).
  Safe: no such element exists (assumption 7). -/
  | elementWidth
  /-- A cycle: the configuration registers hold parameters outside 00_scope.md R7, so no block exists
  (70_reset_and_hazards.md R140). Safe: the spec asks for this refusal. -/
  | illegalConfig
  /-- A cycle: all three agents' sequences are exhausted, so the session has ended (70_reset_and_hazards.md R144). Safe:
  nothing after the end is modelled (assumption 3). -/
  | sessionEnd
  deriving DecidableEq, Repr

/-- The status of a response (60_exceptions.md R122). The codes 9 to 15 are never produced and have no name. -/
inductive Status where
  | ok
  | illegal
  | wrongPort
  | spanOpen
  | noSpan
  | spanRange
  | addrAlign
  | addrRange
  | aborted
  deriving DecidableEq, Repr

/-- The span descriptor of a response: two (slot index, length) pairs (30_encoding.md R64, R71). -/
structure Desc where
  off1 : Word
  len1 : Word
  off2 : Word
  len2 : Word
  deriving DecidableEq, Repr

/-- A response (30_encoding.md R64). -/
structure Response where
  status : Status
  count : Word
  data : List Elem
  desc : Desc
  deriving DecidableEq, Repr

/-- The slots' bytes by segment byte address (20_memory.md R41), addresses strictly rising. A byte that is not listed is
unset: it has no value, and a read of it draws one (R43). -/
abbrev Memory := List Host.Cell

/-- The state of the machine. -/
structure State where
  /-- `WR`, the write cursor (10_state.md R21). -/
  wr : Word
  /-- `RD`, the read cursor (10_state.md R22). -/
  rd : Word
  /-- `Slot(0..N-1)` as bytes of the segment (10_state.md R23, 20_memory.md R41). -/
  mem : Memory
  /-- `SPAN_OPEN` (10_state.md R28). -/
  spanOpen : Bool
  /-- `SPAN_LEN` (10_state.md R28). -/
  spanLen : Word
  /-- `ERR_P`: `STICKY` in bit 4, `FIRST` in bits 3:0 (10_state.md R30). -/
  errP : BitVec 5
  /-- `ERR_C` (10_state.md R30). -/
  errC : BitVec 5
  /-- `ERR_H` (10_state.md R30). -/
  errH : BitVec 5
  /-- `CFG_CAP` (10_state.md R31). -/
  cfgCap : Word
  /-- `CFG_ELEM_BYTES` (10_state.md R31). -/
  cfgElemBytes : Byte
  /-- `CFG_ELEM_KIND` (10_state.md R31). -/
  cfgElemKind : Byte
  /-- What the producer still presents on port `P`, one entry per cycle, `none` for idle (00_scope.md R13, 30_encoding.md
  R60). The model's own field (assumption 2). -/
  inP : List (Option Transaction)
  /-- What the consumer still presents on port `C`. The model's own field (assumption 2). -/
  inC : List (Option Transaction)
  /-- What the host still presents on port `H`. The model's own field (assumption 2). -/
  inH : List (Option Transaction)
  /-- The port whose command `exec` runs, the `X` of 60_exceptions.md R123. The model's own field (assumption 5). -/
  port : Port
  /-- The write-data channel of that command, the `data` of 60_exceptions.md R123. The model's own field (assumption 5). -/
  wdata : List Elem
  /-- The response port `P` got in the last cycle, `none` if it was idle (30_encoding.md R64). The model's own field
  (assumption 6). -/
  rspP : Option Response
  /-- The response port `C` got in the last cycle. The model's own field (assumption 6). -/
  rspC : Option Response
  /-- The response port `H` got in the last cycle. The model's own field (assumption 6). -/
  rspH : Option Response
  /-- The counter that makes every `draw()` fresh. The model's own field (assumption 1); no statement rests on its value. -/
  draws : Nat
  deriving DecidableEq, Repr

/-- `ResetState()` of a block with the parameters `p` (70_reset_and_hazards.md R142), its agents with nothing to present.
The cursors' 0 is the spec's decision D8 (assumption 14); the values from `inP` on are the model's (assumptions 1, 2, 5, 6). -/
def State.resetWith (p : Params) : State where
  wr := 0#32
  rd := 0#32
  mem := []
  spanOpen := false
  spanLen := 0#32
  errP := 0#5
  errC := 0#5
  errH := 0#5
  cfgCap := BitVec.ofNat 32 p.cap
  cfgElemBytes := BitVec.ofNat 8 p.elemBytes
  cfgElemKind := BitVec.ofNat 8 p.elemKind
  inP := []
  inC := []
  inH := []
  port := .P
  wdata := []
  rspP := none
  rspC := none
  rspH := none
  draws := 0

/-- The machine right after power-on, which is a reset (70_reset_and_hazards.md R141), for the parameters
`Config.params` (assumption 4). -/
def State.reset : State := State.resetWith Config.params

end Sys2Proof.Machine
end

