-- ==== Sys2Proof/Machine/Operands.lean ====
section
/-! DEFINITION. What a command's operands mean: the parameters as naturals (00_scope.md R6), which ports may issue a command
(30_encoding.md R66), wraparound-safe indexing and the two-span split (20_memory.md R45, R46), and the bytes of an element
(20_memory.md R42). All arithmetic is on naturals (00_scope.md R10). -/

namespace Sys2Proof.Machine

/-- `CAP` (00_scope.md R6), read from `CFG_CAP`. -/
def State.cap (s : State) : Nat := s.cfgCap.toNat

/-- `E`, the element size in bytes (00_scope.md R6), read from `CFG_ELEM_BYTES`. -/
def State.elemBytes (s : State) : Nat := s.cfgElemBytes.toNat

/-- The parameters a state's configuration registers hold (10_state.md R31). -/
def State.params (s : State) : Params :=
  { cap := s.cfgCap.toNat, elemBytes := s.cfgElemBytes.toNat, elemKind := s.cfgElemKind.toNat }

/-- `N = CAP + 1`, the number of slots (00_scope.md R6; 90_conflicts.md C1). -/
def State.slotCount (s : State) : Nat := s.cap + 1

/-- The byte address just past the last slot of `n` slots of `e` bytes (00_scope.md R6). -/
def segmentSize (e n : Nat) : Nat := 8 + n * e

/-- `SEG_BYTES` (00_scope.md R6, 20_memory.md R40). -/
def State.segBytes (s : State) : Nat := segmentSize s.elemBytes s.slotCount

/-- Port legality (30_encoding.md R66). -/
def legalPort (i : Instr) (x : Port) : Bool :=
  match i with
  | .push _ => x == .P
  | .wspan _ => x == .P
  | .spanWr _ => x == .P
  | .spanCommit => x == .P
  | .pop _ => x == .C
  | .segRd _ => x == .H
  | .reset => x == .H
  | .nop => true
  | .empty => true
  | .full => true
  | .capacity => true
  | .availRead => true
  | .availWrite => true
  | .elemInfo => true
  | .errStatus => true

/-- `Idx(base, j) = (base + j) mod N` (20_memory.md R45). -/
def idx (n base j : Nat) : Nat := (base + j) % n

/-- `X <- (X + k) mod N`, the one form of every cursor update (20_memory.md R47). -/
def advance (n : Nat) (x : Word) (k : Nat) : Word := BitVec.ofNat 32 ((x.toNat + k) % n)

/-- The length of the first span of `Split(b, k)` (20_memory.md R46). -/
def splitLen1 (n b k : Nat) : Nat := min (n - b) k

/-- `Split(b, k)` as a descriptor (20_memory.md R46, 30_encoding.md R71). -/
def splitDesc (n b k : Nat) : Desc where
  off1 := BitVec.ofNat 32 b
  len1 := BitVec.ofNat 32 (splitLen1 n b k)
  off2 := 0#32
  len2 := BitVec.ofNat 32 (k - splitLen1 n b k)

/-- `(0,0,0,0)` (30_encoding.md R64). -/
def zeroDesc : Desc := { off1 := 0#32, len1 := 0#32, off2 := 0#32, len2 := 0#32 }

/-- The segment address of slot `i`: `8 + i×E` (20_memory.md R41). -/
def slotAddr (e i : Nat) : Nat := 8 + i * e

/-- The little-endian bytes of the `e`-byte number `v`: byte `k` is bits `[8k+7 : 8k]` (20_memory.md R42). -/
def bytesOf : Nat → Nat → List Byte
  | 0, _ => []
  | e + 1, v => BitVec.ofNat 8 v :: bytesOf e (v / 256)

/-- The number a little-endian byte list stands for (20_memory.md R43, `MemRead`). -/
def numberOf : List Byte → Nat
  | [] => 0
  | b :: bs => b.toNat + 256 * numberOf bs

/-- The element a little-endian byte list stands for. -/
def elemOf (bs : List Byte) : Elem := BitVec.ofNat 64 (numberOf bs)

/-- Why write data is refused for a command that takes `n` elements of `e` bytes (30_encoding.md R60, R63; assumption 7). -/
def dataRefusal (e n : Nat) (data : List Elem) : Option Refusal :=
  if data.length = n then
    if data.all (elemFits e) then none else some .elementWidth
  else some .dataLength

end Sys2Proof.Machine
end

