-- ==== Sys2Proof/Machine/Flags.lean ====
section
/-! DEFINITION. The quantities and predicates computed from the cursors (10_state.md R24, R25), which the block stores no
flag for, and the fields of the error registers (10_state.md R30), the block's only status bits (R33). -/

namespace Sys2Proof.Machine

/-- `availableRead(s)` (10_state.md R25; 90_conflicts.md C1: the modulus is `N`). -/
def State.availableRead (s : State) : Nat := (s.wr.toNat + s.slotCount - s.rd.toNat) % s.slotCount

/-- `availableWrite(s)` (10_state.md R25). -/
def State.availableWrite (s : State) : Nat := s.cap - s.availableRead

/-- `isEmpty(s)` (10_state.md R24). -/
def State.isEmpty (s : State) : Bool := s.rd == s.wr

/-- `isFull(s)` (10_state.md R24). -/
def State.isFull (s : State) : Bool := (s.wr.toNat + 1) % s.slotCount == s.rd.toNat

/-- The truth value of a query as `COUNT` (42_status.md R101, R102). -/
def flagWord (b : Bool) : Word := if b then 1#32 else 0#32

/-- The code of a status (60_exceptions.md R122). -/
def Status.code : Status → BitVec 4
  | .ok => 0#4
  | .illegal => 1#4
  | .wrongPort => 2#4
  | .spanOpen => 3#4
  | .noSpan => 4#4
  | .spanRange => 5#4
  | .addrAlign => 6#4
  | .addrRange => 7#4
  | .aborted => 8#4

/-- `STICKY`, bit 4 of an error register (10_state.md R30). -/
def errSticky (e : BitVec 5) : Bool := e.getLsbD 4

/-- `FIRST`, bits 3:0 of an error register (10_state.md R30). -/
def errFirst (e : BitVec 5) : BitVec 4 := e.extractLsb' 0 4

/-- The error register after a failure with `code` in `1..7` (60_exceptions.md R125): the first error is kept. -/
def errRecord (e : BitVec 5) (code : BitVec 4) : BitVec 5 := if errSticky e then e else 1#1 ++ code

/-- The error register of a port (10_state.md R30). -/
def State.errOf (s : State) : Port → BitVec 5
  | .P => s.errP
  | .C => s.errC
  | .H => s.errH

/-- `zext_32({ERR_H, 000, ERR_C, 000, ERR_P})` (42_status.md R107). -/
def State.errStatusWord (s : State) : Word := 0#11 ++ s.errH ++ 0#3 ++ s.errC ++ 0#3 ++ s.errP

/-- `zext_32({CFG_ELEM_KIND[7:0], CFG_ELEM_BYTES[7:0]})` (42_status.md R106). -/
def State.elemInfoWord (s : State) : Word := 0#16 ++ s.cfgElemKind ++ s.cfgElemBytes

end Sys2Proof.Machine
end

