-- ==== Sys2Proof/Machine/Ops.lean ====
section
/-! DEFINITION. The named operations over memory and registers: reading and writing segment bytes and slots (20_memory.md
R41 to R43), answering a command (30_encoding.md R64), `raise Err` (60_exceptions.md R124, R125), which is all this block has
for taking an exception, `ResetState()` (70_reset_and_hazards.md R142), and the checks every command passes first (30_encoding.md
R63, R66). There is no return from an exception (60_exceptions.md R128). -/

namespace Sys2Proof.Machine

/-- The canonical form of memory: addresses strictly rising. An unlisted byte has no value, so no entry equals it. -/
abbrev Memory.wf (m : Memory) : Prop := m.Pairwise (fun x y => x.1 < y.1)

/-- The byte at an address, if something has written it since reset (10_state.md R23). -/
def Memory.read : Memory → Nat → Option Byte
  | [], _ => none
  | (k, b) :: m, a => if k = a then some b else Memory.read m a

/-- Write one byte, keeping the canonical form. -/
def Memory.write : Memory → Nat → Byte → Memory
  | [], a, v => [(a, v)]
  | (k, b) :: m, a, v =>
    if a < k then (a, v) :: (k, b) :: m
    else if a = k then (a, v) :: m
    else (k, b) :: Memory.write m a v

/-- Write bytes at rising addresses from `a`. -/
def Memory.writeBytes : Memory → Nat → List Byte → Memory
  | m, _, [] => m
  | m, a, b :: bs => Memory.writeBytes (Memory.write m a b) (a + 1) bs

/-- The `n` bytes from `a`, if all of them are set. -/
def Memory.readBytes (m : Memory) : Nat → Nat → Option (List Byte)
  | _, 0 => some []
  | a, n + 1 =>
    match Memory.read m a, Memory.readBytes m (a + 1) n with
    | some b, some bs => some (b :: bs)
    | _, _ => none

/-- `Slot(i) <- v`, that is `MemWrite(8 + i×E, E, v)` (20_memory.md R43). -/
def Memory.writeSlot (e : Nat) (m : Memory) (i : Nat) (v : Elem) : Memory :=
  Memory.writeBytes m (slotAddr e i) (bytesOf e v.toNat)

/-- `Slot(Idx(base, j)) <- v`, and so on with `j + 1` for the rest of the elements (20_memory.md R45, 40_transfer.md R80). -/
def Memory.writeElems (e n base : Nat) : Memory → Nat → List Elem → Memory
  | m, _, [] => m
  | m, j, v :: vs => Memory.writeElems e n base (Memory.writeSlot e m (idx n base j) v) (j + 1) vs

/-- `Slot(i)` of a memory of `e`-byte slots: a value, or unset (10_state.md R23). -/
def Memory.slot (e : Nat) (m : Memory) (i : Nat) : Option Elem :=
  (Memory.readBytes m (slotAddr e i) e).map elemOf

/-- `Slot(i)` (00_scope.md R11, 10_state.md R23). -/
def State.slot (s : State) (i : Nat) : Option Elem := Memory.slot s.elemBytes s.mem i

/-- `draw()` for the byte at segment address `a`, read by the port whose command is executed (00_scope.md R11;
assumption 1). -/
def State.drawByte (s : State) (a : Nat) : Byte := Config.draw s.port s.draws a

/-- The `n` drawn bytes of an unset slot at `a`, one fresh `draw()` for each (20_memory.md R43). -/
def State.drawBytes (s : State) (a n : Nat) : List Byte := (List.range n).map (fun k => s.drawByte (a + k))

/-- What `POP` reads from slot `i`: its value, or draws if it is unset (40_transfer.md R81, 20_memory.md R43). -/
def State.slotValue (s : State) (i : Nat) : Elem :=
  match s.slot i with
  | some v => v
  | none => elemOf (s.drawBytes (slotAddr s.elemBytes i) s.elemBytes)

/-- Byte `k` of a word or an element, little-endian: bits `[8k+7 : 8k]` (20_memory.md R42). -/
def byteOf {w : Nat} (v : BitVec w) (k : Nat) : Byte := v.extractLsb' (8 * k) 8

/-- `MemByte(s, a)` for `0 ≤ a < SEG_BYTES` (20_memory.md R43). -/
def State.segByte (s : State) (a : Nat) : Byte :=
  if a < 4 then byteOf s.wr a
  else if a < 8 then byteOf s.rd (a - 4)
  else
    match s.slot ((a - 8) / s.elemBytes) with
    | some v => byteOf v ((a - 8) % s.elemBytes)
    | none => s.drawByte a

/-- One byte of a `SEG_RD` word: bytes past the end of the segment read as 0 (43_host.md R115). -/
def State.segByteOrZero (s : State) (a : Nat) : Byte := if a < s.segBytes then s.segByte a else 0#8

/-- The little-endian word `SEG_RD` reads at `a` (43_host.md R115). -/
def State.segWord (s : State) (a : Nat) : Word :=
  BitVec.ofNat 32 (numberOf
    [s.segByteOrZero a, s.segByteOrZero (a + 1), s.segByteOrZero (a + 2), s.segByteOrZero (a + 3)])

/-- What a port still presents. -/
def State.inputOf (s : State) : Port → List (Option Transaction)
  | .P => s.inP
  | .C => s.inC
  | .H => s.inH

/-- The response a port got in the last cycle. -/
def State.rspOf (s : State) : Port → Option Response
  | .P => s.rspP
  | .C => s.rspC
  | .H => s.rspH

/-- Set a port's response register. -/
def State.setRsp (s : State) (x : Port) (r : Option Response) : State :=
  { s with
    rspP := if x = .P then r else s.rspP
    rspC := if x = .C then r else s.rspC
    rspH := if x = .H then r else s.rspH }

/-- Set a port's error register. -/
def State.setErr (s : State) (x : Port) (e : BitVec 5) : State :=
  { s with
    errP := if x = .P then e else s.errP
    errC := if x = .C then e else s.errC
    errH := if x = .H then e else s.errH }

/-- Advance the free-value counter, so that the next command's draws are fresh ones (assumption 1). -/
def State.nextDraws (s : State) : State := { s with draws := s.draws + 1 }

/-- Answer the command being executed: its response goes to its port, and its draws are used up. -/
def State.answer (s : State) (r : Response) : State := (s.setRsp s.port (some r)).nextDraws

/-- `respond(OK, count, data, desc)` (00_scope.md R11, 30_encoding.md R64). -/
def State.respond (s : State) (count : Word) (data : List Elem) (desc : Desc) : State :=
  s.answer { status := .ok, count := count, data := data, desc := desc }

/-- The zero response of an error (60_exceptions.md R124). -/
def errorResponse (code : Status) : Response := { status := code, count := 0#32, data := [], desc := zeroDesc }

/-- `raise Err(code)` at the executing port, for a code in `1..7` (60_exceptions.md R124, R125): the zero response with
the code, and the port's sticky error register, which keeps its first code. Nothing else changes. -/
def State.raiseErr (s : State) (code : Status) : State :=
  (s.setErr s.port (errRecord (s.errOf s.port) code.code)).answer (errorResponse code)

/-- The producer's cursor moves by `k` (40_transfer.md R80, 41_span.md R92). -/
def State.advanceWr (s : State) (k : Nat) : State := { s with wr := advance s.slotCount s.wr k }

/-- The consumer's cursor moves by `k` (40_transfer.md R81). -/
def State.advanceRd (s : State) (k : Nat) : State := { s with rd := advance s.slotCount s.rd k }

/-- Elements `vs` go to the slots at logical offsets `j`, `j + 1`, … from the write cursor (20_memory.md R45). -/
def State.writeElems (s : State) (j : Nat) (vs : List Elem) : State :=
  { s with mem := Memory.writeElems s.elemBytes s.slotCount s.wr.toNat s.mem j vs }

/-- Set the span window registers (10_state.md R28). -/
def State.setWindow (s : State) (isOpen : Bool) (len : Word) : State :=
  { s with spanOpen := isOpen, spanLen := len }

/-- The elements at logical offsets `0 .. k-1` from the read cursor (40_transfer.md R81). -/
def State.readElems (s : State) (k : Nat) : List Elem :=
  (List.range k).map (fun j => s.slotValue (idx s.slotCount s.rd.toNat j))

/-- `ResetState()` (70_reset_and_hazards.md R142): every register of 10_state.md R20 at its reset value, the
configuration registers unchanged. What the agents still present, and the free-value counter, are no state of the block and
stay. -/
def State.resetState (s : State) : State :=
  { s with
    wr := 0#32
    rd := 0#32
    mem := []
    spanOpen := false
    spanLen := 0#32
    errP := 0#5
    errC := 0#5
    errH := 0#5 }

/-- What comes before a command's own rule: a transaction whose write data is not the command's is refused
(30_encoding.md R63), then the port check (60_exceptions.md R123). -/
def accept (i : Instr) (s : State) (body : State) : Host.Outcome State Fault Refusal :=
  match dataRefusal s.elemBytes i.dataCount s.wdata with
  | some r => .refused r
  | none => if legalPort i s.port then .next body else .next (s.raiseErr .wrongPort)

end Sys2Proof.Machine
end

