-- ==== Sys2Proof/Machine/HostPort.lean ====
section
/-! DEFINITION. The host commands `SEG_RD` and `RESET` (43_host.md). -/

namespace Sys2Proof.Machine

/-- `SEG_RD a` (43_host.md R115): the alignment check comes before the range check. -/
def execSegRd (a : Word) (s : State) : Host.Outcome State Fault Refusal :=
  accept (.segRd a) s
    (if a.toNat % 4 ≠ 0 then s.raiseErr .addrAlign
     else if s.segBytes ≤ a.toNat then s.raiseErr .addrRange
     else s.respond (s.segWord a.toNat) [] zeroDesc)

/-- `RESET` (43_host.md R116). What it does to the other ports' commands of its cycle is in `resetCycle` (20_memory.md
R52). -/
def execReset (s : State) : Host.Outcome State Fault Refusal :=
  accept .reset s (s.resetState.respond 0#32 [] zeroDesc)

end Sys2Proof.Machine
end

