-- ==== Sys2Proof/Machine/Span.lean ====
section
/-! DEFINITION. The zero-copy span interface `WSPAN`, `SPAN_WR` and `SPAN_COMMIT` (41_span.md). -/

namespace Sys2Proof.Machine

/-- `WSPAN amount` (41_span.md R90), refused with `SPAN_OPEN` while a window is open (60_exceptions.md R123). -/
def execWspan (amount : Word) (s : State) : Host.Outcome State Fault Refusal :=
  accept (.wspan amount) s
    (if s.spanOpen then s.raiseErr .spanOpen
     else
      let g := min amount.toNat s.availableWrite
      (s.setWindow true (BitVec.ofNat 32 g)).respond (BitVec.ofNat 32 g) []
        (splitDesc s.slotCount s.wr.toNat g))

/-- `SPAN_WR j` (41_span.md R91): `NO_SPAN` without a window, then `SPAN_RANGE` past the grant (60_exceptions.md R123). -/
def execSpanWr (j : Word) (s : State) : Host.Outcome State Fault Refusal :=
  accept (.spanWr j) s
    (if s.spanOpen = false then s.raiseErr .noSpan
     else if s.spanLen.toNat ≤ j.toNat then s.raiseErr .spanRange
     else (s.writeElems j.toNat s.wdata).respond 0#32 [] zeroDesc)

/-- `SPAN_COMMIT` (41_span.md R92): publishes exactly the grant and closes the window. -/
def execSpanCommit (s : State) : Host.Outcome State Fault Refusal :=
  accept .spanCommit s
    (if s.spanOpen = false then s.raiseErr .noSpan
     else ((s.advanceWr s.spanLen.toNat).setWindow false 0#32).respond s.spanLen [] zeroDesc)

end Sys2Proof.Machine
end

