-- ==== Sys2Proof/Machine/Status.lean ====
section
/-! DEFINITION. `NOP` and the status and query commands (42_status.md): legal on every port, and no state of the block
changes. -/

namespace Sys2Proof.Machine

/-- `NOP` (42_status.md R100). -/
def execNop (s : State) : Host.Outcome State Fault Refusal :=
  accept .nop s (s.respond 0#32 [] zeroDesc)

/-- `EMPTY` (42_status.md R101). -/
def execEmpty (s : State) : Host.Outcome State Fault Refusal :=
  accept .empty s (s.respond (flagWord s.isEmpty) [] zeroDesc)

/-- `FULL` (42_status.md R102). -/
def execFull (s : State) : Host.Outcome State Fault Refusal :=
  accept .full s (s.respond (flagWord s.isFull) [] zeroDesc)

/-- `CAPACITY` (42_status.md R103). -/
def execCapacity (s : State) : Host.Outcome State Fault Refusal :=
  accept .capacity s (s.respond s.cfgCap [] zeroDesc)

/-- `AVAIL_READ` (42_status.md R104). -/
def execAvailRead (s : State) : Host.Outcome State Fault Refusal :=
  accept .availRead s (s.respond (BitVec.ofNat 32 s.availableRead) [] zeroDesc)

/-- `AVAIL_WRITE` (42_status.md R105). -/
def execAvailWrite (s : State) : Host.Outcome State Fault Refusal :=
  accept .availWrite s (s.respond (BitVec.ofNat 32 s.availableWrite) [] zeroDesc)

/-- `ELEM_INFO` (42_status.md R106). -/
def execElemInfo (s : State) : Host.Outcome State Fault Refusal :=
  accept .elemInfo s (s.respond s.elemInfoWord [] zeroDesc)

/-- `ERR_STATUS` (42_status.md R107): it does not clear the registers. -/
def execErrStatus (s : State) : Host.Outcome State Fault Refusal :=
  accept .errStatus s (s.respond s.errStatusWord [] zeroDesc)

end Sys2Proof.Machine
end

