-- ==== Sys2Proof/Machine/Transfer.lean ====
section
/-! DEFINITION. The copying transfers `PUSH` and `POP` (40_transfer.md). -/

namespace Sys2Proof.Machine

/-- `PUSH len` (40_transfer.md R80), refused with `SPAN_OPEN` while a span window is open (60_exceptions.md R123). -/
def execPush (len : Word) (s : State) : Host.Outcome State Fault Refusal :=
  accept (.push len) s
    (if s.spanOpen then s.raiseErr .spanOpen
     else
      let k := min len.toNat s.availableWrite
      ((s.writeElems 0 (s.wdata.take k)).advanceWr k).respond (BitVec.ofNat 32 k) [] zeroDesc)

/-- `POP len` (40_transfer.md R81). -/
def execPop (len : Word) (s : State) : Host.Outcome State Fault Refusal :=
  accept (.pop len) s
    (let k := min len.toNat s.availableRead
     (s.advanceRd k).respond (BitVec.ofNat 32 k) (s.readElems k) zeroDesc)

end Sys2Proof.Machine
end

