-- ==== Sys2Proof/Machine/Dispatch.lean ====
section
/-! DEFINITION. One arm per command, each a direct call of its meaning. `exec i s` runs the legal command `i` at port
`s.port` with the write data `s.wdata`, reading `s` as the start-of-cycle state (60_exceptions.md R123). -/

namespace Sys2Proof.Machine

def exec (i : Instr) (s : State) : Host.Outcome State Fault Refusal :=
  match i with
  | .nop => Sys2Proof.Machine.execNop s
  | .push len => Sys2Proof.Machine.execPush len s
  | .wspan amount => Sys2Proof.Machine.execWspan amount s
  | .spanWr j => Sys2Proof.Machine.execSpanWr j s
  | .spanCommit => Sys2Proof.Machine.execSpanCommit s
  | .pop len => Sys2Proof.Machine.execPop len s
  | .empty => Sys2Proof.Machine.execEmpty s
  | .full => Sys2Proof.Machine.execFull s
  | .capacity => Sys2Proof.Machine.execCapacity s
  | .availRead => Sys2Proof.Machine.execAvailRead s
  | .availWrite => Sys2Proof.Machine.execAvailWrite s
  | .elemInfo => Sys2Proof.Machine.execElemInfo s
  | .errStatus => Sys2Proof.Machine.execErrStatus s
  | .segRd a => Sys2Proof.Machine.execSegRd a s
  | .reset => Sys2Proof.Machine.execReset s

end Sys2Proof.Machine
end

