-- ==== Sys2Proof/Machine/Cycle.lean ====
section
/-! DEFINITION. One cycle of the block (20_memory.md R52): every presented transaction is executed against the
start-of-cycle state, the ports' update sets are merged, and a legal `RESET` on port `H` replaces everything. One step of
the machine is one cycle. -/

namespace Sys2Proof.Machine

/-- What a sequence presents in this cycle: its first entry; an exhausted sequence is idle (assumption 3). -/
def presented : List (Option Transaction) → Option Transaction
  | [] => none
  | t :: _ => t

/-- What port `x` presents in this cycle, or `none` if it is idle (30_encoding.md R60). -/
def State.presentedAt (s : State) (x : Port) : Option Transaction := presented (s.inputOf x)

/-- The state as the transaction `(X, data)` of 60_exceptions.md R123 meets it. -/
def State.atPort (s : State) (x : Port) (data : List Elem) : State := { s with port := x, wdata := data }

/-- Why port `x`'s transaction is refused at the port boundary, if it is (30_encoding.md R63). -/
def State.boundaryRefusal (s : State) (x : Port) : Option Refusal :=
  match s.presentedAt x with
  | none => none
  | some t => dataRefusal s.elemBytes (writeLength t.cmd) t.data

/-- `Exec(X, s0, c)` (20_memory.md R52, 60_exceptions.md R123): an idle port changes nothing and gets no response, an
illegal word raises `ILLEGAL`, a legal command runs its rule. -/
def runPort (x : Port) (s : State) : Host.Outcome State Fault Refusal :=
  match s.presentedAt x with
  | none => .next (s.setRsp x none)
  | some t =>
    match decode t.cmd with
    | .error _ => .next ((s.atPort x t.data).raiseErr .illegal)
    | .ok i => exec i (s.atPort x t.data)

/-- Port `H` presents a legal `RESET` (20_memory.md R52). -/
def State.resets (s : State) : Bool :=
  match s.presentedAt .H with
  | none => false
  | some t =>
    match decode t.cmd with
    | .ok .reset => true
    | _ => false

/-- After a cycle every agent's next entry is one further on (00_scope.md R13), and the draws of the cycle are used up. -/
def State.consume (s0 s : State) : State :=
  { s with
    inP := s0.inP.tail
    inC := s0.inC.tail
    inH := s0.inH.tail
    port := s0.port
    wdata := s0.wdata
    draws := s0.draws + 1 }

/-- The merge of the three update sets (20_memory.md R52): port `P` gives `WR`, the slots, the window and `ERR_P`; port `C`
gives `RD` and `ERR_C`; port `H` gives `ERR_H`; each gives its own response. -/
def merge (s0 sP sC sH : State) : State :=
  { s0 with
    wr := sP.wr
    mem := sP.mem
    spanOpen := sP.spanOpen
    spanLen := sP.spanLen
    errP := sP.errP
    rspP := sP.rspP
    rd := sC.rd
    errC := sC.errC
    rspC := sC.rspC
    errH := sH.errH
    rspH := sH.rspH }

/-- The response of a `P` or `C` port in the cycle of a legal `RESET` (60_exceptions.md R126). -/
def abortedResponse (t : Option Transaction) : Option Response :=
  match t with
  | none => none
  | some _ => some (errorResponse .aborted)

/-- The cycle of a legal `RESET` on port `H` (20_memory.md R52, 60_exceptions.md R126). -/
def resetCycle (s : State) : Host.Outcome State Fault Refusal :=
  match runPort .H s with
  | .next t =>
    .next (s.consume
      ((t.setRsp .P (abortedResponse (s.presentedAt .P))).setRsp .C (abortedResponse (s.presentedAt .C))))
  | .fault f => .fault f
  | .refused r => .refused r

/-- Any other cycle (20_memory.md R52). -/
def plainCycle (s : State) : Host.Outcome State Fault Refusal :=
  match runPort .P s with
  | .fault f => .fault f
  | .refused r => .refused r
  | .next sP =>
    match runPort .C s with
    | .fault f => .fault f
    | .refused r => .refused r
    | .next sC =>
      match runPort .H s with
      | .fault f => .fault f
      | .refused r => .refused r
      | .next sH => .next (s.consume (merge s sP sC sH))

/-- `Cycle` (20_memory.md R52). -/
def cycle (s : State) : Host.Outcome State Fault Refusal :=
  if s.resets then resetCycle s else plainCycle s

/-- All three agents' sequences are exhausted: the point in the agents' programs at which the session ends
(70_reset_and_hazards.md R144; assumption 3). -/
def State.sessionOver (s : State) : Bool := s.inP.isEmpty && s.inC.isEmpty && s.inH.isEmpty

/-- Why the cycle does not take place, if it does not: no such block (70_reset_and_hazards.md R140), no session any more
(R144), or something presented that is no transaction (30_encoding.md R63). -/
def State.cycleRefusal (s : State) : Option Refusal :=
  if s.params.legal = false then some .illegalConfig
  else if s.sessionOver then some .sessionEnd
  else
    match s.boundaryRefusal .P with
    | some r => some r
    | none =>
      match s.boundaryRefusal .C with
      | some r => some r
      | none => s.boundaryRefusal .H

/-- One step of the machine: the cycle, if it takes place. -/
def clockStep (s : State) : Host.Outcome State Fault Refusal :=
  match s.cycleRefusal with
  | some r => .refused r
  | none => cycle s

/-- The port on which a word is presented when only the word is given: the first of `P`, `C`, `H` that may issue it
(30_encoding.md R66); `P` for an illegal word. -/
def portFor (cmd : Command) : Port :=
  match decode cmd with
  | .error _ => .P
  | .ok i => if legalPort i .P then .P else if legalPort i .C then .C else .H

/-- Write data for a word when only the word is given: as many zero elements as it takes (30_encoding.md R63). -/
def zeroData (cmd : Command) : List Elem := List.replicate (writeLength cmd) 0#64

/-- A cycle in which port `x` presents `t` and the other ports are idle, put before what the agents still present. -/
def State.presentNext (s : State) (x : Port) (t : Transaction) : State :=
  { s with
    inP := (if x = .P then some t else none) :: s.inP
    inC := (if x = .C then some t else none) :: s.inC
    inH := (if x = .H then some t else none) :: s.inH }

end Sys2Proof.Machine
end

