-- ==== Sys2Proof/Machine/Step.lean ====
section
/-! DEFINITION. The step of the machine, and the host's way to place one command where the next step takes it. -/

namespace Sys2Proof.Machine

/-- One step is one cycle of the block (20_memory.md R52). -/
def step (s : State) : Host.Outcome State Fault Refusal := clockStep s

/-- `s` with the command word `w` presented in the very next cycle, on the first port that may issue it and with as many
zero write-data elements as it takes, the other ports idle; what the agents present after that is unchanged (assumption 2).
A word wider than a command is placed nowhere. -/
def State.withFetchWord (s : State) (nbits w : Nat) : State :=
  match tableWord nbits w with
  | none => s
  | some cmd => s.presentNext (portFor cmd) { cmd := cmd, data := zeroData cmd }

end Sys2Proof.Machine
end

