-- ==== Sys2Proof/Machine/Driver.lean ====
section
/-! DEFINITION. The document's software operations as command sequences (30_encoding.md R73): what a driver presents for each
and what it does with the answer. The block never sees the caller's buffer; nothing in the step uses this file. -/

namespace Sys2Proof.Machine

/-- A command of the driver with its write data. -/
def commandOf (i : Instr) (data : List Elem) : Transaction := { cmd := encode i, data := data }

/-- The part `elements[O .. O+L)` of the caller's buffer, with the defaults `O = 0` and `L = len(elements) − O`; the driver
must ensure `O + L ≤ len(elements)` (30_encoding.md R73), and `L` must fit `ARG`. -/
def bufferPart (len : Nat) (length? offset? : Option Nat) : Option (Nat × Nat) :=
  let o := offset?.getD 0
  let l := length?.getD (len - o)
  if o + l ≤ len ∧ l < 2 ^ 32 then some (o, l) else none

/-- `push(elements, length?, offset?)` (30_encoding.md R73). -/
def driverPush (elements : List Elem) (length? offset? : Option Nat) : Option Transaction :=
  match bufferPart elements.length length? offset? with
  | none => none
  | some (o, l) => some (commandOf (.push (BitVec.ofNat 32 l)) ((elements.drop o).take l))

/-- What `push` leaves with the caller after a response of `COUNT = k` (30_encoding.md R73, 70_reset_and_hazards.md R145). -/
def driverRemainder (elements : List Elem) (length? offset? : Option Nat) (k : Nat) : List Elem :=
  match bufferPart elements.length length? offset? with
  | none => []
  | some (o, l) => ((elements.drop o).take l).drop k

/-- `pop(elements, length?, offset?)` (30_encoding.md R73); the driver asks for no more than the buffer part holds
(assumption 15). -/
def driverPop (elements : List Elem) (length? offset? : Option Nat) : Option Transaction :=
  match bufferPart elements.length length? offset? with
  | none => none
  | some (_, l) => some (commandOf (.pop (BitVec.ofNat 32 l)) [])

/-- The caller's buffer after a `pop` that delivered `data`: `DATA[0..k)` goes to `elements[O .. O+k)` and the rest stays
(30_encoding.md R73, 92_eei_decisions.md D18). -/
def driverPopStore (elements : List Elem) (offset? : Option Nat) (data : List Elem) : List Elem :=
  let o := offset?.getD 0
  elements.take o ++ data ++ elements.drop (o + data.length)

/-- `empty()` and `full()` return whether `COUNT ≠ 0` (30_encoding.md R73). -/
def driverBool (r : Response) : Bool := r.count != 0#32

/-- `empty()`, `full()`, `capacity()`, `availableRead()`, `availableWrite()` (30_encoding.md R73). -/
def driverEmpty : Transaction := commandOf .empty []

/-- `full()` (30_encoding.md R73). -/
def driverFull : Transaction := commandOf .full []

/-- `capacity()` (30_encoding.md R73). -/
def driverCapacity : Transaction := commandOf .capacity []

/-- `availableRead()` (30_encoding.md R73). -/
def driverAvailableRead : Transaction := commandOf .availRead []

/-- `availableWrite()` (30_encoding.md R73). -/
def driverAvailableWrite : Transaction := commandOf .availWrite []

/-- The first command of `writeWithOffsets(amount, cb)` and `writeWithCallback(amount, cb)` (30_encoding.md R73). -/
def driverSpanOpen (amount : Word) : Transaction := commandOf (.wspan amount) []

/-- The callback's writes, offset and value, and then the commit, once `WSPAN` has granted `g` (30_encoding.md R73); an
offset outside the grant is no part of the expansion. -/
def driverSpanWrites (g : Nat) : List (Word × Elem) → Option (List Transaction)
  | [] => some [commandOf .spanCommit []]
  | (j, v) :: ws =>
    if j.toNat < g then (driverSpanWrites g ws).map (commandOf (.spanWr j) [v] :: ·) else none

end Sys2Proof.Machine
end

