-- ==== Sys2Proof/Machine/Construct.lean ====
section
/-! DEFINITION. Construction of a block from its parameters (70_reset_and_hazards.md R140, R143): the construction errors of
60_exceptions.md R120, and power-on (R141). -/

namespace Sys2Proof.Machine

/-- The construction errors (60_exceptions.md R120, 70_reset_and_hazards.md R140). -/
inductive ConstructionError where
  /-- `CAP = 0`, or so large that the segment exceeds `2^32` bytes. -/
  | malformedCapacity
  /-- `ELEM_KIND` outside `{0, 1}`, or a float kind with `E ∉ {4, 8}`. -/
  | wrongElementType
  /-- A given segment length that is not `SEG_BYTES`. -/
  | segmentTooSmall
  /-- `E ∉ {1, 2, 4, 8}` with an unsigned kind: outside 00_scope.md R7 but not named in R140 (assumption 10). -/
  | badElementSize
  deriving DecidableEq, Repr

/-- The construction error of the parameters `p` and, for a segment given by its length, that length. Which error is named
when several hold is the model's choice (assumption 10). -/
def constructionError (p : Params) (segLen : Option Nat) : Option ConstructionError :=
  if p.elemKind ≠ 0 ∧ p.elemKind ≠ 1 then some .wrongElementType
  else if p.elemKind = 1 ∧ p.elemBytes ≠ 4 ∧ p.elemBytes ≠ 8 then some .wrongElementType
  else if p.elemBytes ≠ 1 ∧ p.elemBytes ≠ 2 ∧ p.elemBytes ≠ 4 ∧ p.elemBytes ≠ 8 then some .badElementSize
  else if p.cap = 0 ∨ 2 ^ 32 < segmentSize p.elemBytes (p.cap + 1) then some .malformedCapacity
  else
    match segLen with
    | none => none
    | some l => if l = segmentSize p.elemBytes (p.cap + 1) then none else some .segmentTooSmall

/-- Build a block: it is in `ResetState()` in the first cycle of its life (70_reset_and_hazards.md R141), or construction
fails and there is no state. -/
def construct (p : Params) (segLen : Option Nat) : Except ConstructionError State :=
  match constructionError p segLen with
  | some e => .error e
  | none => .ok (State.resetWith p)

/-- Why a session cannot start: several agents drive one port (60_exceptions.md R134, 70_reset_and_hazards.md R151,
93_implementation_defined.md I1). -/
inductive SessionError where
  | sharedPort
  deriving DecidableEq, Repr

/-- What the agents on port `x` present: their one sequence, nothing if there is no such agent. -/
def sequenceOf (agents : List (Port × List (Option Transaction))) (x : Port) : List (Option Transaction) :=
  match agents with
  | [] => []
  | (y, q) :: rest => if y = x then q else sequenceOf rest x

/-- Hand the ports to the agents, each with its program (70_reset_and_hazards.md R143 step 4, 00_scope.md R13); a
configuration in which two agents share a port is refused (60_exceptions.md R134). -/
def State.startSession (s : State) (agents : List (Port × List (Option Transaction))) : Except SessionError State :=
  if (agents.map Prod.fst).Nodup then
    .ok { s with inP := sequenceOf agents .P, inC := sequenceOf agents .C, inH := sequenceOf agents .H }
  else .error .sharedPort

end Sys2Proof.Machine
end

