-- ==== Sys2Proof/Safety.lean ====
section
/-! DEFINITION. The terms claims are made in: the invariant of the block, what the ring holds, what a cycle publishes and
delivers, and runs without a protocol error or a reset. -/

namespace Sys2Proof.Machine

/-- An error register holds what 60_exceptions.md R125 can leave in it: 0, or `STICKY` with a code in `1..7`. -/
abbrev errInv (e : BitVec 5) : Prop :=
  (errSticky e = false → e = 0#5) ∧ (errSticky e = true → 1 ≤ (errFirst e).toNat ∧ (errFirst e).toNat ≤ 7)

/-- What holds of the block in every cycle of every session: legal parameters (00_scope.md R7), cursors below `N` (10_state.md
R21, R22, 20_memory.md R47), the window registers (10_state.md R28) with the grant inside the free slots (41_span.md R93),
memory in canonical form, inside the slots and slot by slot (20_memory.md R41, R50), and the error registers (R125). -/
structure State.Inv (s : State) : Prop where
  legal : s.params.legal = true
  wr_lt : s.wr.toNat < s.slotCount
  rd_lt : s.rd.toNat < s.slotCount
  closed : s.spanOpen = false → s.spanLen = 0#32
  grant_free : s.spanLen.toNat ≤ s.availableWrite
  mem_wf : Memory.wf s.mem
  mem_range : ∀ c ∈ s.mem, 8 ≤ c.1 ∧ c.1 < s.segBytes
  whole_slots : ∀ i < s.slotCount, ∀ k < s.elemBytes,
    (Memory.read s.mem (slotAddr s.elemBytes i + k)).isSome = (s.slot i).isSome
  errP_ok : errInv s.errP
  errC_ok : errInv s.errC
  errH_ok : errInv s.errH

/-- The two states hold the same configuration (10_state.md R31). -/
def State.sameConfig (s t : State) : Prop :=
  t.cfgCap = s.cfgCap ∧ t.cfgElemBytes = s.cfgElemBytes ∧ t.cfgElemKind = s.cfgElemKind

/-- The two states agree on the span window (10_state.md R28). -/
def State.sameWindow (s t : State) : Prop := t.spanOpen = s.spanOpen ∧ t.spanLen = s.spanLen

/-- The two states agree on the three error registers (10_state.md R30). -/
def State.sameErrors (s t : State) : Prop := t.errP = s.errP ∧ t.errC = s.errC ∧ t.errH = s.errH

/-- The two states agree on all of the block's architectural state (10_state.md R20), every byte of memory included. -/
def State.sameBlock (s t : State) : Prop :=
  t.wr = s.wr ∧ t.rd = s.rd ∧ t.mem = s.mem ∧ s.sameWindow t ∧ s.sameErrors t ∧ s.sameConfig t

/-- The two states agree on what the agents still present and on the transaction being executed. -/
def State.sameInputs (s t : State) : Prop :=
  t.inP = s.inP ∧ t.inC = s.inC ∧ t.inH = s.inH ∧ t.port = s.port ∧ t.wdata = s.wdata

/-- What the ring holds, oldest first: the filled slots from the read cursor (20_memory.md R48, R55). A slot the producer
committed without ever writing it is `none` (41_span.md R94). -/
def State.contents (s : State) : List (Option Elem) :=
  (List.range s.availableRead).map (fun j => s.slot (idx s.slotCount s.rd.toNat j))

/-- The command port `x` presents in this cycle, if it is a legal one. -/
def State.commandAt (s : State) (x : Port) : Option Instr :=
  match s.presentedAt x with
  | none => none
  | some t => (decode t.cmd).toOption

/-- The write data port `x` presents in this cycle. -/
def State.dataAt (s : State) (x : Port) : List Elem :=
  match s.presentedAt x with
  | none => []
  | some t => t.data

/-- What the cycle from `s` publishes: the elements a `PUSH` moves (40_transfer.md R80), or the slots a `SPAN_COMMIT`
publishes (41_span.md R92, R94). -/
def State.published (s : State) : List (Option Elem) :=
  match s.commandAt .P with
  | some (.push len) =>
    if s.spanOpen then [] else ((s.dataAt .P).take (min len.toNat s.availableWrite)).map some
  | some .spanCommit =>
    if s.spanOpen then
      (List.range s.spanLen.toNat).map (fun j => s.slot (idx s.slotCount s.wr.toNat j))
    else []
  | _ => []

/-- How many elements the cycle from `s` delivers on port `C` (40_transfer.md R81). -/
def State.popCount (s : State) : Nat :=
  match s.commandAt .C with
  | some (.pop len) => min len.toNat s.availableRead
  | _ => 0

/-- What `k` cycles from `s` publish, in publication order (20_memory.md R56). -/
def publishedIn : Nat → State → List (Option Elem)
  | 0, _ => []
  | k + 1, s =>
    match step s with
    | .next t => s.published ++ publishedIn k t
    | _ => []

/-- The slots `k` cycles from `s` deliver, in delivery order (20_memory.md R56). -/
def deliveredIn : Nat → State → List (Option Elem)
  | 0, _ => []
  | k + 1, s =>
    match step s with
    | .next t => s.contents.take s.popCount ++ deliveredIn k t
    | _ => []

/-- No legal `RESET` is presented in the first `k` cycles. -/
def resetFree : Nat → State → Bool
  | 0, _ => true
  | k + 1, s =>
    !s.resets &&
      match step s with
      | .next t => resetFree k t
      | _ => true

/-- No protocol error has occurred since reset: the premise 60_exceptions.md R125 asks of a claim about a program. -/
def State.noErrors (s : State) : Bool :=
  !errSticky s.errP && !errSticky s.errC && !errSticky s.errH

end Sys2Proof.Machine
end

