-- ==== Sys2Proof/Certificates/Slice0/Obligations.lean ====
section
/-! DEFINITION. The statements for the provers. Each docstring says which rule of spec/ it formalises, or on which it rests
where it is the model's own wording of what several rules say together. -/

open Sys2Proof Sys2Proof.Machine

/-- 70_reset_and_hazards.md R142: `ResetState()`, value by value. The cursors' 0 is the spec's decision D8. -/
def Obligations.ResetStateValues : Prop :=
  ∀ s : State, s.params.legal = true →
    s.resetState.wr = 0#32 ∧ s.resetState.rd = 0#32 ∧
    (∀ i < s.slotCount, s.resetState.slot i = none) ∧
    (∀ a, 8 ≤ a → a < s.segBytes → s.resetState.segByte a = Config.draw s.port s.draws a) ∧
    s.resetState.spanOpen = false ∧ s.resetState.spanLen = 0#32 ∧
    s.resetState.errP = 0#5 ∧ s.resetState.errC = 0#5 ∧ s.resetState.errH = 0#5 ∧
    s.sameConfig s.resetState ∧
    s.resetState.isEmpty = true ∧ s.resetState.availableRead = 0 ∧ s.resetState.availableWrite = s.cap

/-- Rests on 70_reset_and_hazards.md R140, R141: a block is built exactly in the state `RESET` leaves, and its configuration
registers hold its parameters. The values of the model's own interface fields at reset, and the parameters of `State.reset`,
are the model's choice (assumptions 1, 2, 4, 5, 6). -/
def Obligations.PowerOnIsReset : Prop :=
  (∀ p : Params, p.legal = true →
    construct p none = .ok (State.resetWith p) ∧ (State.resetWith p).resetState = State.resetWith p ∧
    (State.resetWith p).params = p) ∧
  Config.params.legal = true ∧ construct Config.params none = .ok State.reset

/-- 00_scope.md R7: the legal parameter values, and that outside them construction fails. -/
def Obligations.LegalParameters : Prop :=
  ∀ p : Params,
    ((∃ s, construct p none = .ok s) ↔
      1 ≤ p.cap ∧ (p.elemBytes = 1 ∨ p.elemBytes = 2 ∨ p.elemBytes = 4 ∨ p.elemBytes = 8) ∧
      (p.elemKind = 0 ∨ p.elemKind = 1) ∧ (p.elemKind = 1 → p.elemBytes = 4 ∨ p.elemBytes = 8) ∧
      8 + (p.cap + 1) * p.elemBytes ≤ 2 ^ 32) ∧
    ∀ s, construct p none = .ok s →
      s.cap = p.cap ∧ s.elemBytes = p.elemBytes ∧ s.slotCount < 2 ^ 32 ∧ ∀ a < s.segBytes, a < 2 ^ 32

/-- Rests on 70_reset_and_hazards.md R140: a segment given by its length must have exactly `SEG_BYTES` bytes. -/
def Obligations.SegmentLength : Prop :=
  ∀ (p : Params) (l : Nat) (s : State),
    construct p (some l) = .ok s ↔ construct p none = .ok s ∧ l = 8 + (p.cap + 1) * p.elemBytes

/-- The invariant of the block holds after power-on, for every legal parameters and every agents' programs (rests on
70_reset_and_hazards.md R141, R142, R143). -/
def Obligations.InvAtReset : Prop :=
  (∀ (p : Params) (agents : List (Port × List (Option Transaction))) (s : State),
    construct p none = .ok (State.resetWith p) → (State.resetWith p).startSession agents = .ok s → s.Inv) ∧
  State.reset.Inv

/-- Every step keeps the invariant: legal parameters, cursors below `N`, the grant inside the free slots, memory canonical and
inside the slots, error registers as R125 leaves them (rests on 20_memory.md R47, 41_span.md R93, 10_state.md R28, R30). -/
def Obligations.StepKeepsInv : Prop :=
  ∀ s t : State, s.Inv → step s = .next t → t.Inv

/-- Decoding the word of a command gives the command back, for every command and every operand (rests on 30_encoding.md R61,
R65, R70). -/
def Obligations.DecodeEncode : Prop :=
  ∀ i : Instr, decode (encode i) = .ok i

/-- 30_encoding.md R68: which words are illegal, that every other word is exactly one legal command, and what an illegal word
does at the port that presents it. -/
def Obligations.IllegalWords : Prop :=
  (∀ cmd : Command, (∃ e, decode cmd = .error e) ↔
    ((let op := (fieldOp cmd).toNat
      (5 ≤ op ∧ op ≤ 7) ∨ (9 ≤ op ∧ op ≤ 0xF) ∨ (0x17 ≤ op ∧ op ≤ 0x1F) ∨ (0x21 ≤ op ∧ op ≤ 0x3E) ∨ 0x40 ≤ op) ∨
     fieldRsv cmd ≠ 0#24 ∨
     ((fieldOp cmd).toNat ∈ [0x00, 0x04, 0x10, 0x11, 0x12, 0x13, 0x14, 0x15, 0x16, 0x3F] ∧ fieldArg cmd ≠ 0#32))) ∧
  (∀ (cmd : Command) (i : Instr), decode cmd = .ok i ↔ cmd = encode i) ∧
  (∀ (s : State) (x : Port) (t : Transaction) (e : DecodeError), s.presentedAt x = some t → decode t.cmd = .error e →
    ∃ u, runPort x s = .next u ∧ u.rspOf x = some ⟨.illegal, 0#32, [], zeroDesc⟩ ∧
      u.wr = s.wr ∧ u.rd = s.rd ∧ u.mem = s.mem ∧ s.sameWindow u ∧ s.sameConfig u ∧
      u.errOf x = (if errSticky (s.errOf x) then s.errOf x else 0x11#5) ∧ ∀ y, y ≠ x → u.errOf y = s.errOf y)

/-- A sanity statement: words written out from 30_encoding.md R65 and 95_test_vectors.md E2, E3, E11, E13, E16. -/
def Obligations.WordsDecode : Prop :=
  decode 0x0000000000000000#64 = .ok .nop ∧ decode 0x0100000000000003#64 = .ok (.push 3#32) ∧
  decode 0x0200000000000000#64 = .ok (.wspan 0#32) ∧ decode 0x0300000000000002#64 = .ok (.spanWr 2#32) ∧
  decode 0x080000000000000A#64 = .ok (.pop 10#32) ∧ decode 0x1600000000000000#64 = .ok .errStatus ∧
  decode 0x2000000000000002#64 = .ok (.segRd 2#32) ∧ decode 0x3F00000000000000#64 = .ok .reset ∧
  decode 0x0400000000000001#64 = .error .operandNonzero

/-- A step runs the decoded commands: each port's command is executed against the start-of-cycle state and the three results
are merged; the agents' sequences move on by one entry (rests on 20_memory.md R52, 00_scope.md R13). -/
def Obligations.StepRunsDecoded : Prop :=
  ∀ (s uP uC uH : State) (tP tC tH : Transaction) (iP iC iH : Instr), s.params.legal = true →
    s.presentedAt .P = some tP → s.presentedAt .C = some tC → s.presentedAt .H = some tH →
    decode tP.cmd = .ok iP → decode tC.cmd = .ok iC → decode tH.cmd = .ok iH → iH ≠ .reset →
    exec iP (s.atPort .P tP.data) = .next uP → exec iC (s.atPort .C tC.data) = .next uC →
    exec iH (s.atPort .H tH.data) = .next uH →
    step s = .next (s.consume (merge s uP uC uH))

/-- A step in which one port alone presents a command is that command's execution: the block's state and the port's response
are what `exec` gives, the idle ports get no response, and every agent's sequence moves on by one entry (rests on 20_memory.md
R52, 30_encoding.md R64). It holds of `RESET` on port `H` too. -/
def Obligations.StepRunsOnePort : Prop :=
  ∀ (s u : State) (x : Port) (t : Transaction) (i : Instr), s.params.legal = true →
    s.presentedAt x = some t → (∀ y, y ≠ x → s.presentedAt y = none) → decode t.cmd = .ok i →
    exec i (s.atPort x t.data) = .next u →
    ∃ v, step s = .next v ∧ u.sameBlock v ∧ v.rspOf x = u.rspOf x ∧ (∀ y, y ≠ x → v.rspOf y = none) ∧
      v.inP = s.inP.tail ∧ v.inC = s.inC.tail ∧ v.inH = s.inH.tail ∧ v.port = s.port ∧ v.wdata = s.wdata

/-- 30_encoding.md R66: which port may issue which command, and what happens on another port. -/
def Obligations.PortLegality : Prop :=
  ∀ (s : State) (i : Instr), i.wellFormed s.elemBytes s.wdata = true →
    ((∃ n, i = .push n ∨ i = .wspan n ∨ i = .spanWr n ∨ i = .spanCommit) →
      (exec i s = .next (s.raiseErr .wrongPort) ↔ s.port ≠ .P)) ∧
    ((∃ n, i = .pop n) → (exec i s = .next (s.raiseErr .wrongPort) ↔ s.port ≠ .C)) ∧
    ((∃ n, i = .segRd n ∨ i = .reset) → (exec i s = .next (s.raiseErr .wrongPort) ↔ s.port ≠ .H)) ∧
    ((i = .nop ∨ i = .empty ∨ i = .full ∨ i = .capacity ∨ i = .availRead ∨ i = .availWrite ∨ i = .elemInfo ∨
      i = .errStatus) → exec i s ≠ .next (s.raiseErr .wrongPort))

/-- 60_exceptions.md R123: the checks and their order. The decoder's check comes first, on the word alone; of the others the first
that fails decides the status; if none fails, the command's own rule runs and answers `OK` (what it does is said, command by
command, by the statements below). -/
def Obligations.CheckOrder : Prop :=
  (∀ (s : State) (x : Port) (t : Transaction) (e : DecodeError), s.presentedAt x = some t → decode t.cmd = .error e →
    runPort x s = .next ((s.atPort x t.data).raiseErr .illegal)) ∧
  (∀ (s : State) (x : Port) (t : Transaction) (i : Instr), s.presentedAt x = some t → decode t.cmd = .ok i →
    runPort x s = exec i (s.atPort x t.data)) ∧
  ∀ (s : State) (i : Instr), i.wellFormed s.elemBytes s.wdata = true →
    if legalPort i s.port = false then exec i s = .next (s.raiseErr .wrongPort)
    else if (∃ n, i = .push n ∨ i = .wspan n) ∧ s.spanOpen = true then exec i s = .next (s.raiseErr .spanOpen)
    else if (∃ n, i = .spanWr n ∨ i = .spanCommit) ∧ s.spanOpen = false then exec i s = .next (s.raiseErr .noSpan)
    else if ∃ j, i = .spanWr j ∧ s.spanLen.toNat ≤ j.toNat then exec i s = .next (s.raiseErr .spanRange)
    else if ∃ a, i = .segRd a ∧ a.toNat % 4 ≠ 0 then exec i s = .next (s.raiseErr .addrAlign)
    else if ∃ a, i = .segRd a ∧ s.segBytes ≤ a.toNat then exec i s = .next (s.raiseErr .addrRange)
    else ∃ u r, exec i s = .next u ∧ u.rspOf s.port = some r ∧ r.status = .ok

/-- Rests on 60_exceptions.md R124 and R125: a command that fails leaves the zero response with its code and its port's sticky
error register, and nothing else. -/
def Obligations.ErrorEffect : Prop :=
  ∀ (s t : State) (i : Instr) (r : Response), exec i s = .next t → t.rspOf s.port = some r → r.status ≠ .ok →
    r = ⟨r.status, 0#32, [], zeroDesc⟩ ∧ 1 ≤ r.status.code.toNat ∧ r.status.code.toNat ≤ 7 ∧
    t.wr = s.wr ∧ t.rd = s.rd ∧ t.mem = s.mem ∧ s.sameWindow t ∧ s.sameConfig t ∧ s.sameInputs t ∧
    t.errOf s.port = (if errSticky (s.errOf s.port) then s.errOf s.port else 1#1 ++ r.status.code) ∧
    ∀ y, y ≠ s.port → t.errOf y = s.errOf y ∧ t.rspOf y = s.rspOf y

/-- 60_exceptions.md R125: the error registers over a cycle. A failure with a code in `1..7` sets `STICKY` and keeps the first
code; nothing else changes a register but `RESET`, which clears it. -/
def Obligations.StickyErrors : Prop :=
  ∀ (s t : State) (x : Port), step s = .next t →
    (s.resets = true → t.errOf x = 0#5) ∧
    (s.resets = false →
      (∃ r, t.rspOf x = some r ∧ 1 ≤ r.status.code.toNat ∧ r.status.code.toNat ≤ 7 ∧
        t.errOf x = if errSticky (s.errOf x) then s.errOf x else 1#1 ++ r.status.code) ∨
      ((∀ r, t.rspOf x = some r → r.status = .ok) ∧ t.errOf x = s.errOf x))

/-- What `NOP` and the queries of the cursors and the capacity answer, on every port and in every state (rests on 42_status.md
R100 to R105; 10_state.md R24, R25). -/
def Obligations.QueryAnswers : Prop :=
  ∀ s : State, s.wdata = [] →
    exec .nop s = .next (s.respond 0#32 [] zeroDesc) ∧
    exec .empty s = .next (s.respond (if s.rd = s.wr then 1#32 else 0#32) [] zeroDesc) ∧
    exec .full s =
      .next (s.respond (if (s.wr.toNat + 1) % (s.cfgCap.toNat + 1) = s.rd.toNat then 1#32 else 0#32) [] zeroDesc) ∧
    exec .capacity s = .next (s.respond s.cfgCap [] zeroDesc) ∧
    exec .availRead s = .next (s.respond
      (BitVec.ofNat 32 ((s.wr.toNat + (s.cfgCap.toNat + 1) - s.rd.toNat) % (s.cfgCap.toNat + 1))) [] zeroDesc) ∧
    exec .availWrite s = .next (s.respond (BitVec.ofNat 32 (s.cfgCap.toNat -
      (s.wr.toNat + (s.cfgCap.toNat + 1) - s.rd.toNat) % (s.cfgCap.toNat + 1))) [] zeroDesc)

/-- What `ELEM_INFO` and `ERR_STATUS` answer, field by field (rests on 42_status.md R106, R107). -/
def Obligations.PackedAnswers : Prop :=
  ∀ s : State, s.wdata = [] →
    (∃ w, exec .elemInfo s = .next (s.respond w [] zeroDesc) ∧ w.extractLsb' 0 8 = s.cfgElemBytes ∧
      w.extractLsb' 8 8 = s.cfgElemKind ∧ w.extractLsb' 16 16 = 0#16) ∧
    (∃ w, exec .errStatus s = .next (s.respond w [] zeroDesc) ∧ w.extractLsb' 0 5 = s.errP ∧ w.extractLsb' 5 3 = 0#3 ∧
      w.extractLsb' 8 5 = s.errC ∧ w.extractLsb' 13 3 = 0#3 ∧ w.extractLsb' 16 5 = s.errH ∧ w.extractLsb' 21 11 = 0#11)

/-- The frame of the commands that only read: the block's state is unchanged, every byte of memory with it, and only the
executing port is answered. It holds of `NOP`, the seven status commands and, where it answers `OK`, `SEG_RD` (rests on
20_memory.md R51, 42_status.md R100 to R107, 43_host.md R115). -/
def Obligations.ReadOnlyFrame : Prop :=
  ∀ (s t : State) (i : Instr) (r : Response),
    (i = .nop ∨ i = .empty ∨ i = .full ∨ i = .capacity ∨ i = .availRead ∨ i = .availWrite ∨ i = .elemInfo ∨
      i = .errStatus ∨ ∃ a, i = .segRd a) →
    exec i s = .next t → t.rspOf s.port = some r → r.status = .ok →
    s.sameBlock t ∧ s.sameInputs t ∧ r.data = [] ∧ r.desc = zeroDesc ∧ ∀ y, y ≠ s.port → t.rspOf y = s.rspOf y

/-- What `PUSH` does on port `P` with no window open: it moves `k = min(len, availableWrite)` elements to the slots from the
write cursor, publishes them, answers `k`, and leaves everything else (rests on 40_transfer.md R80, 20_memory.md R45, R47). -/
def Obligations.PushResult : Prop :=
  ∀ (s : State) (len : Word), s.port = .P → s.spanOpen = false → (Instr.push len).wellFormed s.elemBytes s.wdata = true →
    ∃ t, exec (.push len) s = .next t ∧
      (let k := min len.toNat s.availableWrite
       t.rspP = some ⟨.ok, BitVec.ofNat 32 k, [], zeroDesc⟩ ∧
       t.wr.toNat = (s.wr.toNat + k) % s.slotCount ∧
       (∀ j < k, t.slot (idx s.slotCount s.wr.toNat j) = s.wdata[j]?) ∧
       ∀ a, (∀ j < k, ¬ (slotAddr s.elemBytes (idx s.slotCount s.wr.toNat j) ≤ a ∧
           a < slotAddr s.elemBytes (idx s.slotCount s.wr.toNat j) + s.elemBytes)) →
         Memory.read t.mem a = Memory.read s.mem a) ∧
      t.rd = s.rd ∧ s.sameWindow t ∧ s.sameErrors t ∧ s.sameConfig t ∧ s.sameInputs t ∧ t.rspC = s.rspC ∧ t.rspH = s.rspH

/-- What `POP` does on port `C`: it delivers `k = min(len, availableRead)` elements from the slots at the read cursor, an unset
slot as drawn bytes, moves the read cursor, and leaves everything else, every byte of memory with it (rests on 40_transfer.md
R81, 20_memory.md R43). -/
def Obligations.PopResult : Prop :=
  ∀ (s : State) (len : Word), s.port = .C → s.wdata = [] →
    ∃ t data, exec (.pop len) s = .next t ∧
      (let k := min len.toNat s.availableRead
       t.rspC = some ⟨.ok, BitVec.ofNat 32 k, data, zeroDesc⟩ ∧ data.length = k ∧
       t.rd.toNat = (s.rd.toNat + k) % s.slotCount ∧
       ∀ j < k,
         (∀ v, s.slot (idx s.slotCount s.rd.toNat j) = some v → data[j]? = some v) ∧
         (s.slot (idx s.slotCount s.rd.toNat j) = none → data[j]? = some (elemOf
           ((List.range s.elemBytes).map
             (fun b => Config.draw .C s.draws (slotAddr s.elemBytes (idx s.slotCount s.rd.toNat j) + b)))))) ∧
      t.wr = s.wr ∧ t.mem = s.mem ∧ s.sameWindow t ∧ s.sameErrors t ∧ s.sameConfig t ∧ s.sameInputs t ∧
      t.rspP = s.rspP ∧ t.rspH = s.rspH

/-- A `PUSH` of nothing or into a full ring, and a `POP` of nothing or from an empty ring, answers 0 and leaves both cursors and
the slots (rests on 40_transfer.md R80, R81, R83 (b)). -/
def Obligations.NothingMoves : Prop :=
  ∀ (s : State) (len : Word), s.wr.toNat < s.slotCount → s.rd.toNat < s.slotCount →
    (s.port = .P → s.spanOpen = false → (Instr.push len).wellFormed s.elemBytes s.wdata = true →
      (len = 0#32 ∨ s.isFull = true) → exec (.push len) s = .next (s.respond 0#32 [] zeroDesc)) ∧
    (s.port = .C → s.wdata = [] → (len = 0#32 ∨ s.isEmpty = true) →
      exec (.pop len) s = .next (s.respond 0#32 [] zeroDesc))

/-- What `WSPAN` does on port `P` with no window open: it grants `g = min(amount, availableWrite)` slots, opens the window and
answers `g` with the two spans; no cursor and no slot changes (rests on 41_span.md R90, 20_memory.md R46, 30_encoding.md R71). -/
def Obligations.WspanResult : Prop :=
  ∀ (s : State) (amount : Word), s.port = .P → s.spanOpen = false → s.wdata = [] →
    ∃ t, exec (.wspan amount) s = .next t ∧
      (let g := min amount.toNat s.availableWrite
       t.spanOpen = true ∧ t.spanLen.toNat = g ∧
       ∃ d, t.rspP = some ⟨.ok, BitVec.ofNat 32 g, [], d⟩ ∧ d.off1 = s.wr ∧ d.off2 = 0#32 ∧
         d.len1.toNat = min (s.slotCount - s.wr.toNat) g ∧ d.len2.toNat = g - min (s.slotCount - s.wr.toNat) g) ∧
      t.wr = s.wr ∧ t.rd = s.rd ∧ t.mem = s.mem ∧ s.sameErrors t ∧ s.sameConfig t ∧ s.sameInputs t ∧
      t.rspC = s.rspC ∧ t.rspH = s.rspH

/-- The two spans of a transfer cover exactly its slots, in order (rests on 20_memory.md R46, which the spec derives from R45). -/
def Obligations.SplitCovers : Prop :=
  ∀ n b k : Nat, b < n → k < n →
    splitLen1 n b k ≤ k ∧ b + splitLen1 n b k ≤ n ∧
    (∀ j < k, idx n b j = if j < splitLen1 n b k then b + j else j - splitLen1 n b k) ∧
    (0 < k - splitLen1 n b k ↔ n < b + k) ∧
    (b + k = n → idx n b k = 0)

/-- What `SPAN_WR` does on port `P` inside an open window: it writes one granted slot and nothing else (rests on 41_span.md R91,
20_memory.md R45). -/
def Obligations.SpanWrResult : Prop :=
  ∀ (s : State) (j : Word) (v : Elem), s.port = .P → s.spanOpen = true → j.toNat < s.spanLen.toNat → s.wdata = [v] →
    elemFits s.elemBytes v = true →
    ∃ t, exec (.spanWr j) s = .next t ∧ t.rspP = some ⟨.ok, 0#32, [], zeroDesc⟩ ∧
      t.slot (idx s.slotCount s.wr.toNat j.toNat) = some v ∧
      (∀ i, i ≠ idx s.slotCount s.wr.toNat j.toNat → t.slot i = s.slot i) ∧
      (∀ a, ¬ (slotAddr s.elemBytes (idx s.slotCount s.wr.toNat j.toNat) ≤ a ∧
          a < slotAddr s.elemBytes (idx s.slotCount s.wr.toNat j.toNat) + s.elemBytes) →
        Memory.read t.mem a = Memory.read s.mem a) ∧
      t.wr = s.wr ∧ t.rd = s.rd ∧ s.sameWindow t ∧ s.sameErrors t ∧ s.sameConfig t ∧ s.sameInputs t ∧
      t.rspC = s.rspC ∧ t.rspH = s.rspH

/-- What `SPAN_COMMIT` does on port `P` with a window open: it publishes exactly the grant and closes the window (rests on
41_span.md R92, 20_memory.md R47). -/
def Obligations.SpanCommitResult : Prop :=
  ∀ s : State, s.port = .P → s.spanOpen = true → s.wdata = [] →
    ∃ t, exec .spanCommit s = .next t ∧ t.rspP = some ⟨.ok, s.spanLen, [], zeroDesc⟩ ∧
      t.wr.toNat = (s.wr.toNat + s.spanLen.toNat) % s.slotCount ∧ t.spanOpen = false ∧ t.spanLen = 0#32 ∧
      t.rd = s.rd ∧ t.mem = s.mem ∧ s.sameErrors t ∧ s.sameConfig t ∧ s.sameInputs t ∧
      t.rspC = s.rspC ∧ t.rspH = s.rspH

/-- The bytes of the segment: the cursors and the slots, little-endian, an unset slot as draws (rests on 20_memory.md R41, R42,
R43). -/
def Obligations.SegmentBytes : Prop :=
  ∀ s : State, s.params.legal = true →
    (∀ k < 4, s.segByte k = s.wr.extractLsb' (8 * k) 8 ∧ s.segByte (4 + k) = s.rd.extractLsb' (8 * k) 8) ∧
    ∀ i k, k < s.elemBytes →
      (∀ v, s.slot i = some v → s.segByte (8 + i * s.elemBytes + k) = v.extractLsb' (8 * k) 8) ∧
      (s.slot i = none → s.segByte (8 + i * s.elemBytes + k) = Config.draw s.port s.draws (8 + i * s.elemBytes + k))

/-- What `SEG_RD` does on port `H` at an aligned address inside the segment: it answers the little-endian word there, bytes past
the end being 0, and changes nothing; at 0 and 4 the word is the cursor (rests on 43_host.md R115, 20_memory.md R50). -/
def Obligations.SegRdResult : Prop :=
  ∀ (s : State) (a : Word), s.port = .H → s.wdata = [] → a.toNat % 4 = 0 → a.toNat < s.segBytes →
    ∃ t w, exec (.segRd a) s = .next t ∧ t.rspH = some ⟨.ok, w, [], zeroDesc⟩ ∧
      (∀ j < 4, w.extractLsb' (8 * j) 8 = if a.toNat + j < s.segBytes then s.segByte (a.toNat + j) else 0#8) ∧
      (a = 0#32 → w = s.wr) ∧ (a = 4#32 → w = s.rd) ∧
      s.sameBlock t ∧ s.sameInputs t ∧ t.rspP = s.rspP ∧ t.rspC = s.rspC

/-- What `RESET` does on port `H`: `ResetState()`, the configuration registers and what the agents still present unchanged
(rests on 43_host.md R116, 70_reset_and_hazards.md R142). -/
def Obligations.ResetResult : Prop :=
  ∀ s : State, s.port = .H → s.wdata = [] →
    ∃ t, exec .reset s = .next t ∧ t.rspH = some ⟨.ok, 0#32, [], zeroDesc⟩ ∧ s.resetState.sameBlock t ∧
      s.sameConfig t ∧ s.sameInputs t ∧ t.rspP = s.rspP ∧ t.rspC = s.rspC

/-- 60_exceptions.md R126: in the cycle of a legal `RESET` the other ports' commands are not executed and get `ABORTED`; the state
after the cycle is the reset state alone. -/
def Obligations.ResetAborts : Prop :=
  ∀ s t : State, step s = .next t → s.resets = true →
    s.resetState.sameBlock t ∧ t.rspH = some ⟨.ok, 0#32, [], zeroDesc⟩ ∧
    t.rspP = (s.presentedAt .P).map (fun _ => ⟨.aborted, 0#32, [], zeroDesc⟩) ∧
    t.rspC = (s.presentedAt .C).map (fun _ => ⟨.aborted, 0#32, [], zeroDesc⟩)

/-- The data and the free space add up to the capacity, and the predicates say when one of them is 0, for cursors below `N` (rests
on 10_state.md R24, R25, R26, the last of which the spec derives). -/
def Obligations.AvailableSum : Prop :=
  ∀ s : State, s.Inv →
    s.availableRead + s.availableWrite = s.cap ∧ (s.isEmpty = true ↔ s.availableRead = 0) ∧
    (s.isFull = true ↔ s.availableWrite = 0) ∧ ¬ (s.isEmpty = true ∧ s.isFull = true)

/-- The filled slots, the free slots and the reserved slot are a partition of the storage (rests on 20_memory.md R55, which the
spec derives). -/
def Obligations.SlotPartition : Prop :=
  ∀ s : State, s.Inv → ∀ i < s.slotCount,
    ((∃ j < s.availableRead, idx s.slotCount s.rd.toNat j = i) ∨ (∃ j < s.availableWrite, idx s.slotCount s.wr.toNat j = i) ∨
      idx s.slotCount s.rd.toNat (s.slotCount - 1) = i) ∧
    ¬ ((∃ j < s.availableRead, idx s.slotCount s.rd.toNat j = i) ∧ ∃ j < s.availableWrite, idx s.slotCount s.wr.toNat j = i) ∧
    ¬ ((∃ j < s.availableRead, idx s.slotCount s.rd.toNat j = i) ∧ idx s.slotCount s.rd.toNat (s.slotCount - 1) = i) ∧
    ¬ ((∃ j < s.availableWrite, idx s.slotCount s.wr.toNat j = i) ∧ idx s.slotCount s.rd.toNat (s.slotCount - 1) = i)

/-- The free space the producer acts on never exceeds what there is once the consumer's same-cycle `POP` has landed, and likewise
the data the consumer acts on (rests on 20_memory.md R54, which the spec derives from R52, R80 and R81). -/
def Obligations.StalenessBound : Prop :=
  ∀ s t : State, s.Inv → step s = .next t → s.resets = false →
    s.availableWrite ≤ s.cap - (s.wr.toNat + s.slotCount - t.rd.toNat) % s.slotCount ∧
    s.availableRead ≤ (t.wr.toNat + s.slotCount - s.rd.toNat) % s.slotCount

/-- 43_host.md R117: the host cannot write the segment, and each cursor and the slots have their only writers. -/
def Obligations.SingleWriter : Prop :=
  ∀ (s t : State) (i : Instr), exec i s = .next t →
    (t.wr ≠ s.wr → (∃ len, i = .push len) ∨ i = .spanCommit ∨ i = .reset) ∧
    (t.rd ≠ s.rd → (∃ len, i = .pop len) ∨ i = .reset) ∧
    (t.mem ≠ s.mem → (∃ len, i = .push len) ∨ (∃ j, i = .spanWr j) ∨ i = .reset) ∧
    (s.port = .H → i ≠ .reset → t.wr = s.wr ∧ t.rd = s.rd ∧ t.mem = s.mem) ∧
    (s.port ≠ .P → i ≠ .reset → t.wr = s.wr) ∧ (s.port ≠ .C → i ≠ .reset → t.rd = s.rd) ∧
    (s.port = .H → i = .reset → s.params.legal = true → ∀ j, t.slot j = none)

/-- What a command on a port can change: port `P` alone the write cursor, the slots, the window and `ERR_P`; port `C` alone the
read cursor and `ERR_C`; port `H` alone `ERR_H`, unless it is `RESET`. No command changes the configuration, what the agents still
present, or another port's response (rests on 20_memory.md R55, 10_state.md R31). -/
def Obligations.UpdateSets : Prop :=
  ∀ (s t : State) (i : Instr), exec i s = .next t →
    s.sameConfig t ∧ s.sameInputs t ∧ (∀ y, y ≠ s.port → t.rspOf y = s.rspOf y) ∧
    (s.port = .P → t.rd = s.rd ∧ t.errC = s.errC ∧ t.errH = s.errH) ∧
    (s.port = .C → t.wr = s.wr ∧ t.mem = s.mem ∧ s.sameWindow t ∧ t.errP = s.errP ∧ t.errH = s.errH) ∧
    (s.port = .H → i ≠ .reset →
      t.wr = s.wr ∧ t.rd = s.rd ∧ t.mem = s.mem ∧ s.sameWindow t ∧ t.errP = s.errP ∧ t.errC = s.errC)

/-- The ring is a first-in first-out queue, cycle by cycle: what it holds after a cycle is what it held without what was delivered,
followed by what was published; and what `POP` delivers are its oldest elements (rests on 20_memory.md R53, R55, R56). -/
def Obligations.FifoCycle : Prop :=
  ∀ s t : State, s.Inv → step s = .next t → s.resets = false →
    t.contents = s.contents.drop s.popCount ++ s.published ∧
    (∀ len, s.commandAt .C = some (.pop len) →
      ∃ data, t.rspC = some ⟨.ok, BitVec.ofNat 32 s.popCount, data, zeroDesc⟩ ∧ data.length = s.popCount ∧
        ∀ j v, j < s.popCount → s.contents[j]? = some (some v) → data[j]? = some v)

/-- Over any number of cycles without a `RESET`: what the ring held, followed by what was published, is what was delivered followed
by what the ring holds. So the elements delivered are an initial part of those published, in order, none lost and none made up (rests
on 20_memory.md R48, R56, which the spec derives). -/
def Obligations.FifoRun : Prop :=
  ∀ (k : Nat) (s t : State), s.Inv → resetFree k s = true → core.run k s = .next t →
    s.contents ++ publishedIn k s = deliveredIn k s ++ t.contents

/-- Round trip: into an empty ring, wherever its cursors stand, `PUSH n` of `n ≤ CAP` elements and a later `POP n`, with the cursors
where the `PUSH` left them and the `n` filled slots reading as it left them, deliver those elements. Every other slot, the window and
the error registers may have changed in between, as a `WSPAN` or a `SPAN_WR` changes them (rests on 40_transfer.md R83 (a), which the
spec derives). -/
def Obligations.PushPopRoundTrip : Prop :=
  ∀ (s : State) (n : Word), s.Inv → s.rd = s.wr → s.port = .P → s.spanOpen = false → n.toNat ≤ s.cap →
    (Instr.push n).wellFormed s.elemBytes s.wdata = true →
    ∃ t, exec (.push n) s = .next t ∧
      ∀ t' : State, t'.wr = t.wr → t'.rd = t.rd → t.sameConfig t' → t'.port = .C → t'.wdata = [] →
        (∀ j < n.toNat, t'.slot (idx t.slotCount t.rd.toNat j) = t.slot (idx t.slotCount t.rd.toNat j)) →
        ∃ u, exec (.pop n) t' = .next u ∧ u.rspC = some ⟨.ok, n, s.wdata, zeroDesc⟩ ∧ u.isEmpty = true

/-- No command's result depends on another port's command of the same cycle: two cycles from the same state of the block in which
port `x` presents the same give port `x` the same response and leave the same of all that port `x` can write, which is the write
cursor, the slots, the window and `ERR_P` for `P`, the read cursor and `ERR_C` for `C`, and `ERR_H` for `H` (rests on
60_exceptions.md R130 (c), 20_memory.md R52; a `RESET` is R126's case). -/
def Obligations.PortsIndependent : Prop :=
  ∀ (s t t' : State) (x : Port) (qP qC qH : List (Option Transaction)),
    s.resets = false → ({ s with inP := qP, inC := qC, inH := qH } : State).resets = false →
    ({ s with inP := qP, inC := qC, inH := qH } : State).presentedAt x = s.presentedAt x →
    step s = .next t → step { s with inP := qP, inC := qC, inH := qH } = .next t' →
    t'.rspOf x = t.rspOf x ∧ t'.errOf x = t.errOf x ∧
    (x = .P → t'.wr = t.wr ∧ t'.mem = t.mem ∧ t.sameWindow t') ∧ (x = .C → t'.rd = t.rd)

/-- 70_reset_and_hazards.md R155: the block accepts a command on every port in every cycle and answers it in that cycle, whatever the
other ports present. The hypotheses are that there is a block, a session, and that what is presented is a transaction (30_encoding.md
R63, R60). -/
def Obligations.EveryCommandAnswered : Prop :=
  ∀ s : State, s.params.legal = true → s.sessionOver = false →
    (∀ x t, s.presentedAt x = some t → t.data.length = writeLength t.cmd ∧ t.data.all (elemFits s.elemBytes) = true) →
    ∃ u, step s = .next u ∧ ∀ x, (u.rspOf x).isSome = (s.presentedAt x).isSome

/-- The write-data length a command word fixes, and that a cycle in which a port presents a transaction of any other length is
refused with no step (rests on 30_encoding.md R63). That such a transaction refuses the whole cycle, the other ports' commands and a
`RESET` with it, is the model's reading: R63 does not say it (assumption 8). -/
def Obligations.DataLengthRefused : Prop :=
  (∀ cmd : Command,
    (fieldOp cmd = 0x01#8 → writeLength cmd = (fieldArg cmd).toNat) ∧ (fieldOp cmd = 0x03#8 → writeLength cmd = 1) ∧
    (fieldOp cmd ≠ 0x01#8 → fieldOp cmd ≠ 0x03#8 → writeLength cmd = 0)) ∧
  ∀ (s : State) (x : Port) (t : Transaction), s.presentedAt x = some t → t.data.length ≠ writeLength t.cmd →
    ∃ r, step s = .refused r

/-- There is no step of a block with illegal parameters, nor after the session's end, which is when all three sequences are exhausted
(rests on 70_reset_and_hazards.md R140, R144; where the end of a run is put is assumption 3). -/
def Obligations.NoStep : Prop :=
  ∀ s : State, (s.params.legal = false → step s = .refused .illegalConfig) ∧
    (s.params.legal = true → s.inP = [] → s.inC = [] → s.inH = [] → step s = .refused .sessionEnd)

/-- While a window stays open the write cursor and the grant do not change, and no granted slot is among the filled ones, before or
after the cycle (rests on 10_state.md R29, 41_span.md R93, which the spec derives). -/
def Obligations.GrantUnseen : Prop :=
  ∀ s t : State, s.Inv → step s = .next t → s.spanOpen = true → t.spanOpen = true →
    t.wr = s.wr ∧ t.spanLen = s.spanLen ∧
    ∀ j < s.spanLen.toNat,
      (∀ m < s.availableRead, idx s.slotCount s.rd.toNat m ≠ idx s.slotCount s.wr.toNat j) ∧
      (∀ m < t.availableRead, idx t.slotCount t.rd.toNat m ≠ idx s.slotCount s.wr.toNat j)

/-- No step changes the configuration registers (rests on 10_state.md R31, 70_reset_and_hazards.md R142). -/
def Obligations.ConfigConstant : Prop :=
  ∀ s t : State, step s = .next t → s.sameConfig t

/-- A reading is a floor for the side that takes it: in a cycle that does not move the write cursor the free space does not shrink, and
in one that does not move the read cursor the data does not (rests on 42_status.md R108, which the spec derives). -/
def Obligations.ReadingsAreFloors : Prop :=
  ∀ s t : State, s.Inv → step s = .next t → s.resets = false →
    (t.wr = s.wr → s.availableWrite ≤ t.availableWrite) ∧ (t.rd = s.rd → s.availableRead ≤ t.availableRead)

/-- The driver's expansion of `push(elements, length?, offset?)`: where the part of the buffer is inside it and its length fits `ARG`,
exactly one `PUSH` of that part, with the data its word asks for (rests on 30_encoding.md R73, R63). The bound `2^32` on the length,
and that there is no expansion outside these calls, are the model's reading (assumption 15). -/
def Obligations.DriverPushExpands : Prop :=
  ∀ (elements : List Elem) (length? offset? : Option Nat),
    let o := offset?.getD 0
    let l := length?.getD (elements.length - o)
    (o + l ≤ elements.length → l < 2 ^ 32 →
      ∃ t, driverPush elements length? offset? = some t ∧ decode t.cmd = .ok (.push (BitVec.ofNat 32 l)) ∧
        t.data = (elements.drop o).take l ∧ t.data.length = writeLength t.cmd ∧ writeLength t.cmd = l) ∧
    (¬ (o + l ≤ elements.length ∧ l < 2 ^ 32) → driverPush elements length? offset? = none)
end

