-- ==== Sys2Proof/Laws/Memory.lean ====
section
/-! SUPPORT. Laws of memory: read after write, the canonical form kept, little-endian bytes and the numbers they stand for,
and slots seen through slot writes. -/

namespace Sys2Proof.Machine

/-- Reading a byte after writing one. -/
theorem Memory.read_write (m : Memory) (a b : Nat) (v : Byte) :
    Memory.read (Memory.write m a v) b = if a = b then some v else Memory.read m b := by
  induction m with
  | nil => rfl
  | cons c m ih =>
    obtain ⟨k, x⟩ := c
    by_cases h1 : a < k
    · simp only [Memory.write, h1, if_true, Memory.read]
    · by_cases h2 : a = k
      · subst h2
        simp only [Memory.write, h1, if_true, if_false, Memory.read]
        split <;> rfl
      · simp only [Memory.write, h1, h2, if_false, Memory.read, ih]
        by_cases h3 : k = b
        · simp only [h3, if_true]
          rw [if_neg (by omega)]
        · simp only [h3, if_false]

/-- What a write can leave in memory: the byte written, or what was there. -/
theorem Memory.mem_write {m : Memory} {a : Nat} {v : Byte} {c : Host.Cell} (h : c ∈ Memory.write m a v) :
    c = (a, v) ∨ c ∈ m := by
  induction m with
  | nil => left; simpa [Memory.write] using h
  | cons d m ih =>
    obtain ⟨k, x⟩ := d
    unfold Memory.write at h
    split at h
    · simpa using h
    · split at h
      · rcases List.mem_cons.mp h with h | h
        · exact .inl h
        · exact .inr (List.mem_cons_of_mem _ h)
      · rcases List.mem_cons.mp h with h | h
        · exact .inr (h ▸ List.mem_cons_self)
        · exact (ih h).imp id (List.mem_cons_of_mem _)

/-- A write keeps the canonical form. -/
theorem Memory.write_wf {m : Memory} (h : Memory.wf m) (a : Nat) (v : Byte) : Memory.wf (Memory.write m a v) := by
  induction m with
  | nil => exact List.pairwise_singleton _ _
  | cons d m ih =>
    obtain ⟨k, x⟩ := d
    obtain ⟨hk, hm⟩ := List.pairwise_cons.mp h
    unfold Memory.write
    split
    · next hlt =>
      refine List.pairwise_cons.mpr ⟨fun c hc => ?_, h⟩
      rcases List.mem_cons.mp hc with hc | hc
      · subst hc; exact hlt
      · exact lt_trans hlt (hk c hc)
    · next hlt =>
      split
      · next he => subst he; exact List.pairwise_cons.mpr ⟨hk, hm⟩
      · next he =>
        refine List.pairwise_cons.mpr ⟨fun c hc => ?_, ih hm⟩
        rcases Memory.mem_write hc with hc | hc
        · subst hc
          change k < a
          omega
        · exact hk c hc

/-- Reading a byte after writing a run of bytes. -/
theorem Memory.read_writeBytes (m : Memory) (a b : Nat) (bs : List Byte) :
    Memory.read (Memory.writeBytes m a bs) b =
      if a ≤ b ∧ b < a + bs.length then bs[b - a]? else Memory.read m b := by
  induction bs generalizing m a with
  | nil => rw [if_neg (by simp)]; rfl
  | cons x xs ih =>
    rw [Memory.writeBytes, ih, Memory.read_write]
    simp only [List.length_cons]
    by_cases h0 : a = b
    · subst h0
      rw [if_neg (by omega), if_pos rfl, if_pos (by omega)]
      simp
    · rw [if_neg h0]
      by_cases h1 : a + 1 ≤ b ∧ b < a + 1 + xs.length
      · rw [if_pos h1, if_pos (by omega)]
        have : b - a = (b - (a + 1)) + 1 := by omega
        rw [this, List.getElem?_cons_succ]
      · rw [if_neg h1, if_neg (by omega)]

/-- Writing bytes keeps the canonical form. -/
theorem Memory.writeBytes_wf {m : Memory} (h : Memory.wf m) (a : Nat) (bs : List Byte) :
    Memory.wf (Memory.writeBytes m a bs) := by
  induction bs generalizing m a with
  | nil => exact h
  | cons x xs ih => exact ih (Memory.write_wf h a x) (a + 1)

/-- What writing bytes can leave in memory. -/
theorem Memory.mem_writeBytes {m : Memory} {a : Nat} {bs : List Byte} {c : Host.Cell}
    (h : c ∈ Memory.writeBytes m a bs) : (a ≤ c.1 ∧ c.1 < a + bs.length) ∨ c ∈ m := by
  induction bs generalizing m a with
  | nil => exact .inr h
  | cons x xs ih =>
    simp only [List.length_cons]
    rcases ih h with h | h
    · left; omega
    · rcases Memory.mem_write h with h | h
      · subst h; left; constructor <;> simp
      · exact .inr h

/-- A run of bytes is readable exactly when each of them is set. -/
theorem Memory.readBytes_eq_some (m : Memory) (a n : Nat) (bs : List Byte) :
    Memory.readBytes m a n = some bs ↔ bs.length = n ∧ ∀ k < n, Memory.read m (a + k) = bs[k]? := by
  induction n generalizing a bs with
  | zero =>
    simp only [Memory.readBytes, Option.some.injEq, Nat.not_lt_zero, false_implies, implies_true, and_true,
      List.length_eq_zero_iff]
    exact eq_comm
  | succ n ih =>
    constructor
    · intro h
      simp only [Memory.readBytes] at h
      split at h
      · next b xs hb hxs =>
        obtain ⟨hl, hr⟩ := (ih (a + 1) xs).mp hxs
        obtain rfl := Option.some.inj h
        refine ⟨by simp [hl], fun k hk => ?_⟩
        cases k with
        | zero => simpa using hb
        | succ k =>
          have := hr k (by omega)
          rw [show a + (k + 1) = a + 1 + k by omega, this, List.getElem?_cons_succ]
      · cases h
    · rintro ⟨hl, hr⟩
      cases bs with
      | nil => simp at hl
      | cons b xs =>
        have h0 : Memory.read m a = some b := by simpa using hr 0 (by omega)
        have h1 : Memory.readBytes m (a + 1) n = some xs := by
          refine (ih (a + 1) xs).mpr ⟨by simpa using hl, fun k hk => ?_⟩
          have := hr (k + 1) (by omega)
          rw [show a + 1 + k = a + (k + 1) by omega, this, List.getElem?_cons_succ]
        simp only [Memory.readBytes, h0, h1]

/-- Two memories that agree on a run of bytes read the same there. -/
theorem Memory.readBytes_congr {m m' : Memory} (a n : Nat)
    (h : ∀ k < n, Memory.read m' (a + k) = Memory.read m (a + k)) :
    Memory.readBytes m' a n = Memory.readBytes m a n := by
  induction n generalizing a with
  | zero => rfl
  | succ n ih =>
    have h0 := h 0 (by omega)
    rw [Nat.add_zero] at h0
    have h1 := ih (a + 1) fun k hk => by
      rw [show a + 1 + k = a + (k + 1) by omega]; exact h (k + 1) (by omega)
    simp only [Memory.readBytes, h0, h1]

/-- A readable run has every byte set. -/
theorem Memory.isSome_of_readBytes {m : Memory} {a n : Nat} (h : (Memory.readBytes m a n).isSome = true) (k : Nat)
    (hk : k < n) : (Memory.read m (a + k)).isSome = true := by
  obtain ⟨bs, hbs⟩ := Option.isSome_iff_exists.mp h
  obtain ⟨hl, hr⟩ := (Memory.readBytes_eq_some m a n bs).mp hbs
  rw [hr k hk, List.getElem?_eq_getElem (by omega)]
  rfl

@[simp] theorem length_bytesOf (e v : Nat) : (bytesOf e v).length = e := by
  induction e generalizing v with
  | zero => rfl
  | succ e ih => simp only [bytesOf, List.length_cons, ih]

/-- A number that fits `e` bytes is what its `e` little-endian bytes stand for. -/
theorem numberOf_bytesOf (e v : Nat) (h : v < 2 ^ (8 * e)) : numberOf (bytesOf e v) = v := by
  induction e generalizing v with
  | zero =>
    have : v = 0 := by simpa using h
    subst this; rfl
  | succ e ih =>
    have hd : v / 256 < 2 ^ (8 * e) := by
      rw [Nat.div_lt_iff_lt_mul (by norm_num)]
      calc v < 2 ^ (8 * (e + 1)) := h
        _ = 2 ^ (8 * e) * 256 := by rw [show 8 * (e + 1) = 8 * e + 8 by ring, pow_add]; norm_num
    simp only [bytesOf, numberOf, ih _ hd, BitVec.toNat_ofNat]
    omega

/-- `e` bytes stand for a number below `2^(8e)`. -/
theorem numberOf_lt (bs : List Byte) : numberOf bs < 2 ^ (8 * bs.length) := by
  induction bs with
  | nil => simp [numberOf]
  | cons b bs ih =>
    have hb := b.isLt
    rw [numberOf, List.length_cons, show 8 * (bs.length + 1) = 8 * bs.length + 8 by ring, pow_add]
    omega

/-- An element that fits is what its bytes stand for. -/
theorem elemOf_bytesOf {e : Nat} {v : Elem} (h : elemFits e v = true) : elemOf (bytesOf e v.toNat) = v := by
  rw [elemOf, numberOf_bytesOf e _ (by simpa [elemFits] using h), BitVec.ofNat_toNat, BitVec.setWidth_eq]

/-- Distinct slots share no byte. -/
theorem slotAddr_disjoint {e i i' k k' : Nat} (hi : i ≠ i') (hk : k < e) (hk' : k' < e) :
    slotAddr e i + k ≠ slotAddr e i' + k' := by
  unfold slotAddr
  rcases Nat.lt_or_gt_of_ne hi with h | h
  · have := Nat.mul_le_mul_right e (show i + 1 ≤ i' from h)
    rw [Nat.add_mul] at this
    omega
  · have := Nat.mul_le_mul_right e (show i' + 1 ≤ i from h)
    rw [Nat.add_mul] at this
    omega

/-- A byte of a slot that is not the one written. -/
theorem Memory.read_writeSlot_of_ne (e : Nat) (m : Memory) (i a : Nat) (v : Elem)
    (h : ¬ (slotAddr e i ≤ a ∧ a < slotAddr e i + e)) :
    Memory.read (Memory.writeSlot e m i v) a = Memory.read m a := by
  rw [Memory.writeSlot, Memory.read_writeBytes, length_bytesOf, if_neg h]

/-- `Slot(i)` after `Slot(i) <- v`. -/
theorem Memory.slot_writeSlot_self {e : Nat} (m : Memory) (i : Nat) {v : Elem} (h : elemFits e v = true) :
    Memory.slot e (Memory.writeSlot e m i v) i = some v := by
  have : Memory.readBytes (Memory.writeSlot e m i v) (slotAddr e i) e = some (bytesOf e v.toNat) := by
    refine (Memory.readBytes_eq_some _ _ _ _).mpr ⟨length_bytesOf _ _, fun k hk => ?_⟩
    rw [Memory.writeSlot, Memory.read_writeBytes, length_bytesOf, if_pos (by omega), Nat.add_sub_cancel_left]
  rw [Memory.slot, this, Option.map_some, elemOf_bytesOf h]

/-- `Slot(i')` after `Slot(i) <- v` for another slot. -/
theorem Memory.slot_writeSlot_of_ne (e : Nat) (m : Memory) {i i' : Nat} (v : Elem) (h : i ≠ i') :
    Memory.slot e (Memory.writeSlot e m i v) i' = Memory.slot e m i' := by
  unfold Memory.slot
  rw [Memory.readBytes_congr]
  intro k hk
  apply Memory.read_writeSlot_of_ne
  intro hc
  exact slotAddr_disjoint h (show slotAddr e i' + k - slotAddr e i < e by omega) hk (by omega)

/-- Writing a slot keeps the canonical form. -/
theorem Memory.writeSlot_wf {m : Memory} (h : Memory.wf m) (e i : Nat) (v : Elem) :
    Memory.wf (Memory.writeSlot e m i v) := Memory.writeBytes_wf h _ _

/-- Writing elements keeps the canonical form. -/
theorem Memory.writeElems_wf {m : Memory} (h : Memory.wf m) (e n base j : Nat) (vs : List Elem) :
    Memory.wf (Memory.writeElems e n base m j vs) := by
  induction vs generalizing m j with
  | nil => exact h
  | cons v vs ih => exact ih (Memory.writeSlot_wf h e _ v) (j + 1)

/-- What writing elements can leave in memory. -/
theorem Memory.mem_writeElems {e n base j : Nat} {m : Memory} {vs : List Elem} {c : Host.Cell} (hn : 0 < n)
    (h : c ∈ Memory.writeElems e n base m j vs) : (8 ≤ c.1 ∧ c.1 < segmentSize e n) ∨ c ∈ m := by
  induction vs generalizing m j with
  | nil => exact .inr h
  | cons v vs ih =>
    rcases ih h with h | h
    · exact .inl h
    · rcases Memory.mem_writeBytes h with h | h
      · left
        rw [length_bytesOf] at h
        have hi : idx n base j < n := Nat.mod_lt _ hn
        have := Nat.mul_le_mul_right e (show idx n base j + 1 ≤ n from hi)
        rw [Nat.add_mul] at this
        unfold segmentSize
        unfold slotAddr at h
        omega
      · exact .inr h

/-- A byte outside every slot that is written is unchanged. -/
theorem Memory.read_writeElems_of_ne (e n base : Nat) (m : Memory) (j a : Nat) (vs : List Elem)
    (h : ∀ t < vs.length, ¬ (slotAddr e (idx n base (j + t)) ≤ a ∧ a < slotAddr e (idx n base (j + t)) + e)) :
    Memory.read (Memory.writeElems e n base m j vs) a = Memory.read m a := by
  induction vs generalizing m j with
  | nil => rfl
  | cons v vs ih =>
    rw [Memory.writeElems, ih]
    · exact Memory.read_writeSlot_of_ne e m _ a v (by simpa using h 0 (by simp))
    · intro t ht
      have := h (t + 1) (by simpa using ht)
      rwa [show j + (t + 1) = j + 1 + t by omega] at this

/-- A slot that is not written is unchanged. -/
theorem Memory.slot_writeElems_of_ne (e n base : Nat) (m : Memory) (j i : Nat) (vs : List Elem)
    (h : ∀ t < vs.length, idx n base (j + t) ≠ i) :
    Memory.slot e (Memory.writeElems e n base m j vs) i = Memory.slot e m i := by
  induction vs generalizing m j with
  | nil => rfl
  | cons v vs ih =>
    rw [Memory.writeElems, ih]
    · exact Memory.slot_writeSlot_of_ne e m v (by simpa using h 0 (by simp))
    · intro t ht
      have := h (t + 1) (by simpa using ht)
      rwa [show j + (t + 1) = j + 1 + t by omega] at this

/-- Logical offsets below `N` name distinct slots (20_memory.md R45). -/
theorem idx_injective {n base j j' : Nat} (hj : j < n) (hj' : j' < n) (h : idx n base j = idx n base j') : j = j' := by
  have h1 : j % n = j' % n := Nat.ModEq.add_left_cancel' base h
  rwa [Nat.mod_eq_of_lt hj, Nat.mod_eq_of_lt hj'] at h1

/-- The slot at logical offset `j + t` after elements are written from offset `j` on. -/
theorem Memory.slot_writeElems {e n base : Nat} (m : Memory) {j t : Nat} {vs : List Elem} (hv : vs.all (elemFits e) = true)
    (hn : j + vs.length ≤ n) (ht : t < vs.length) :
    Memory.slot e (Memory.writeElems e n base m j vs) (idx n base (j + t)) = some vs[t] := by
  induction vs generalizing m j t with
  | nil => simp at ht
  | cons v vs ih =>
    simp only [List.length_cons] at hn ht
    simp only [List.all_cons, Bool.and_eq_true] at hv
    cases t with
    | zero =>
      rw [Memory.writeElems, Memory.slot_writeElems_of_ne]
      · exact Memory.slot_writeSlot_self m _ hv.1
      · intro t ht' hc
        have := idx_injective (by omega) (by omega) hc
        omega
    | succ t =>
      rw [Memory.writeElems, show j + (t + 1) = j + 1 + t by omega, ih _ hv.2 (by omega) (by omega)]
      rfl

/-- Whether a byte of a slot is set, after elements are written. -/
theorem Memory.writeElems_whole_slots {e n base : Nat} {m : Memory} {j : Nat} {vs : List Elem}
    (hv : vs.all (elemFits e) = true)
    (h : ∀ i < n, ∀ k < e, (Memory.read m (slotAddr e i + k)).isSome = (Memory.slot e m i).isSome) :
    ∀ i < n, ∀ k < e, (Memory.read (Memory.writeElems e n base m j vs) (slotAddr e i + k)).isSome =
      (Memory.slot e (Memory.writeElems e n base m j vs) i).isSome := by
  induction vs generalizing m j with
  | nil => exact h
  | cons v vs ih =>
    simp only [List.all_cons, Bool.and_eq_true] at hv
    refine ih hv.2 fun i hi k hk => ?_
    by_cases hc : idx n base j = i
    · subst hc
      rw [Memory.slot_writeSlot_self m _ hv.1, Memory.writeSlot, Memory.read_writeBytes, length_bytesOf,
        if_pos (by omega), Nat.add_sub_cancel_left, List.getElem?_eq_getElem (by simpa using hk)]
      rfl
    · rw [Memory.slot_writeSlot_of_ne e m v hc, Memory.read_writeSlot_of_ne]
      · exact h i hi k hk
      · intro hx
        exact slotAddr_disjoint hc (show slotAddr e i + k - slotAddr e (idx n base j) < e by omega) hk (by omega)

/-- Memory after reset has the canonical form. -/
theorem State.reset_mem_wf : Memory.wf State.reset.mem := List.Pairwise.nil

/-- `ResetState()` leaves memory in the canonical form. -/
theorem State.resetState_mem_wf (s : State) : Memory.wf s.resetState.mem := List.Pairwise.nil

end Sys2Proof.Machine
end

