-- ==== Sys2Proof/Laws/State.lean ====
section
/-! SUPPORT. The state updates seen through one field at a time: one lemma per field per update, true by `rfl`, so that no
proof unfolds a record update; then the quantities computed from the configuration and the cursors, through the updates that
leave them alone. -/

namespace Sys2Proof.Machine

@[simp] theorem State.setRsp_wr (s : State) (x : Port) (r : Option Response) : (s.setRsp x r).wr = s.wr := rfl
@[simp] theorem State.setRsp_rd (s : State) (x : Port) (r : Option Response) : (s.setRsp x r).rd = s.rd := rfl
@[simp] theorem State.setRsp_mem (s : State) (x : Port) (r : Option Response) : (s.setRsp x r).mem = s.mem := rfl
@[simp] theorem State.setRsp_spanOpen (s : State) (x : Port) (r : Option Response) : (s.setRsp x r).spanOpen = s.spanOpen := rfl
@[simp] theorem State.setRsp_spanLen (s : State) (x : Port) (r : Option Response) : (s.setRsp x r).spanLen = s.spanLen := rfl
@[simp] theorem State.setRsp_errP (s : State) (x : Port) (r : Option Response) : (s.setRsp x r).errP = s.errP := rfl
@[simp] theorem State.setRsp_errC (s : State) (x : Port) (r : Option Response) : (s.setRsp x r).errC = s.errC := rfl
@[simp] theorem State.setRsp_errH (s : State) (x : Port) (r : Option Response) : (s.setRsp x r).errH = s.errH := rfl
@[simp] theorem State.setRsp_cfgCap (s : State) (x : Port) (r : Option Response) : (s.setRsp x r).cfgCap = s.cfgCap := rfl
@[simp] theorem State.setRsp_cfgElemBytes (s : State) (x : Port) (r : Option Response) : (s.setRsp x r).cfgElemBytes = s.cfgElemBytes := rfl
@[simp] theorem State.setRsp_cfgElemKind (s : State) (x : Port) (r : Option Response) : (s.setRsp x r).cfgElemKind = s.cfgElemKind := rfl
@[simp] theorem State.setRsp_inP (s : State) (x : Port) (r : Option Response) : (s.setRsp x r).inP = s.inP := rfl
@[simp] theorem State.setRsp_inC (s : State) (x : Port) (r : Option Response) : (s.setRsp x r).inC = s.inC := rfl
@[simp] theorem State.setRsp_inH (s : State) (x : Port) (r : Option Response) : (s.setRsp x r).inH = s.inH := rfl
@[simp] theorem State.setRsp_port (s : State) (x : Port) (r : Option Response) : (s.setRsp x r).port = s.port := rfl
@[simp] theorem State.setRsp_wdata (s : State) (x : Port) (r : Option Response) : (s.setRsp x r).wdata = s.wdata := rfl
@[simp] theorem State.setRsp_rspP (s : State) (x : Port) (r : Option Response) : (s.setRsp x r).rspP = if x = .P then r else s.rspP := rfl
@[simp] theorem State.setRsp_rspC (s : State) (x : Port) (r : Option Response) : (s.setRsp x r).rspC = if x = .C then r else s.rspC := rfl
@[simp] theorem State.setRsp_rspH (s : State) (x : Port) (r : Option Response) : (s.setRsp x r).rspH = if x = .H then r else s.rspH := rfl
@[simp] theorem State.setRsp_draws (s : State) (x : Port) (r : Option Response) : (s.setRsp x r).draws = s.draws := rfl

@[simp] theorem State.setErr_wr (s : State) (x : Port) (e : BitVec 5) : (s.setErr x e).wr = s.wr := rfl
@[simp] theorem State.setErr_rd (s : State) (x : Port) (e : BitVec 5) : (s.setErr x e).rd = s.rd := rfl
@[simp] theorem State.setErr_mem (s : State) (x : Port) (e : BitVec 5) : (s.setErr x e).mem = s.mem := rfl
@[simp] theorem State.setErr_spanOpen (s : State) (x : Port) (e : BitVec 5) : (s.setErr x e).spanOpen = s.spanOpen := rfl
@[simp] theorem State.setErr_spanLen (s : State) (x : Port) (e : BitVec 5) : (s.setErr x e).spanLen = s.spanLen := rfl
@[simp] theorem State.setErr_errP (s : State) (x : Port) (e : BitVec 5) : (s.setErr x e).errP = if x = .P then e else s.errP := rfl
@[simp] theorem State.setErr_errC (s : State) (x : Port) (e : BitVec 5) : (s.setErr x e).errC = if x = .C then e else s.errC := rfl
@[simp] theorem State.setErr_errH (s : State) (x : Port) (e : BitVec 5) : (s.setErr x e).errH = if x = .H then e else s.errH := rfl
@[simp] theorem State.setErr_cfgCap (s : State) (x : Port) (e : BitVec 5) : (s.setErr x e).cfgCap = s.cfgCap := rfl
@[simp] theorem State.setErr_cfgElemBytes (s : State) (x : Port) (e : BitVec 5) : (s.setErr x e).cfgElemBytes = s.cfgElemBytes := rfl
@[simp] theorem State.setErr_cfgElemKind (s : State) (x : Port) (e : BitVec 5) : (s.setErr x e).cfgElemKind = s.cfgElemKind := rfl
@[simp] theorem State.setErr_inP (s : State) (x : Port) (e : BitVec 5) : (s.setErr x e).inP = s.inP := rfl
@[simp] theorem State.setErr_inC (s : State) (x : Port) (e : BitVec 5) : (s.setErr x e).inC = s.inC := rfl
@[simp] theorem State.setErr_inH (s : State) (x : Port) (e : BitVec 5) : (s.setErr x e).inH = s.inH := rfl
@[simp] theorem State.setErr_port (s : State) (x : Port) (e : BitVec 5) : (s.setErr x e).port = s.port := rfl
@[simp] theorem State.setErr_wdata (s : State) (x : Port) (e : BitVec 5) : (s.setErr x e).wdata = s.wdata := rfl
@[simp] theorem State.setErr_rspP (s : State) (x : Port) (e : BitVec 5) : (s.setErr x e).rspP = s.rspP := rfl
@[simp] theorem State.setErr_rspC (s : State) (x : Port) (e : BitVec 5) : (s.setErr x e).rspC = s.rspC := rfl
@[simp] theorem State.setErr_rspH (s : State) (x : Port) (e : BitVec 5) : (s.setErr x e).rspH = s.rspH := rfl
@[simp] theorem State.setErr_draws (s : State) (x : Port) (e : BitVec 5) : (s.setErr x e).draws = s.draws := rfl

@[simp] theorem State.nextDraws_wr (s : State) : (s.nextDraws).wr = s.wr := rfl
@[simp] theorem State.nextDraws_rd (s : State) : (s.nextDraws).rd = s.rd := rfl
@[simp] theorem State.nextDraws_mem (s : State) : (s.nextDraws).mem = s.mem := rfl
@[simp] theorem State.nextDraws_spanOpen (s : State) : (s.nextDraws).spanOpen = s.spanOpen := rfl
@[simp] theorem State.nextDraws_spanLen (s : State) : (s.nextDraws).spanLen = s.spanLen := rfl
@[simp] theorem State.nextDraws_errP (s : State) : (s.nextDraws).errP = s.errP := rfl
@[simp] theorem State.nextDraws_errC (s : State) : (s.nextDraws).errC = s.errC := rfl
@[simp] theorem State.nextDraws_errH (s : State) : (s.nextDraws).errH = s.errH := rfl
@[simp] theorem State.nextDraws_cfgCap (s : State) : (s.nextDraws).cfgCap = s.cfgCap := rfl
@[simp] theorem State.nextDraws_cfgElemBytes (s : State) : (s.nextDraws).cfgElemBytes = s.cfgElemBytes := rfl
@[simp] theorem State.nextDraws_cfgElemKind (s : State) : (s.nextDraws).cfgElemKind = s.cfgElemKind := rfl
@[simp] theorem State.nextDraws_inP (s : State) : (s.nextDraws).inP = s.inP := rfl
@[simp] theorem State.nextDraws_inC (s : State) : (s.nextDraws).inC = s.inC := rfl
@[simp] theorem State.nextDraws_inH (s : State) : (s.nextDraws).inH = s.inH := rfl
@[simp] theorem State.nextDraws_port (s : State) : (s.nextDraws).port = s.port := rfl
@[simp] theorem State.nextDraws_wdata (s : State) : (s.nextDraws).wdata = s.wdata := rfl
@[simp] theorem State.nextDraws_rspP (s : State) : (s.nextDraws).rspP = s.rspP := rfl
@[simp] theorem State.nextDraws_rspC (s : State) : (s.nextDraws).rspC = s.rspC := rfl
@[simp] theorem State.nextDraws_rspH (s : State) : (s.nextDraws).rspH = s.rspH := rfl
@[simp] theorem State.nextDraws_draws (s : State) : (s.nextDraws).draws = s.draws + 1 := rfl

@[simp] theorem State.answer_wr (s : State) (r : Response) : (s.answer r).wr = s.wr := rfl
@[simp] theorem State.answer_rd (s : State) (r : Response) : (s.answer r).rd = s.rd := rfl
@[simp] theorem State.answer_mem (s : State) (r : Response) : (s.answer r).mem = s.mem := rfl
@[simp] theorem State.answer_spanOpen (s : State) (r : Response) : (s.answer r).spanOpen = s.spanOpen := rfl
@[simp] theorem State.answer_spanLen (s : State) (r : Response) : (s.answer r).spanLen = s.spanLen := rfl
@[simp] theorem State.answer_errP (s : State) (r : Response) : (s.answer r).errP = s.errP := rfl
@[simp] theorem State.answer_errC (s : State) (r : Response) : (s.answer r).errC = s.errC := rfl
@[simp] theorem State.answer_errH (s : State) (r : Response) : (s.answer r).errH = s.errH := rfl
@[simp] theorem State.answer_cfgCap (s : State) (r : Response) : (s.answer r).cfgCap = s.cfgCap := rfl
@[simp] theorem State.answer_cfgElemBytes (s : State) (r : Response) : (s.answer r).cfgElemBytes = s.cfgElemBytes := rfl
@[simp] theorem State.answer_cfgElemKind (s : State) (r : Response) : (s.answer r).cfgElemKind = s.cfgElemKind := rfl
@[simp] theorem State.answer_inP (s : State) (r : Response) : (s.answer r).inP = s.inP := rfl
@[simp] theorem State.answer_inC (s : State) (r : Response) : (s.answer r).inC = s.inC := rfl
@[simp] theorem State.answer_inH (s : State) (r : Response) : (s.answer r).inH = s.inH := rfl
@[simp] theorem State.answer_port (s : State) (r : Response) : (s.answer r).port = s.port := rfl
@[simp] theorem State.answer_wdata (s : State) (r : Response) : (s.answer r).wdata = s.wdata := rfl
@[simp] theorem State.answer_rspP (s : State) (r : Response) : (s.answer r).rspP = if s.port = .P then some r else s.rspP := rfl
@[simp] theorem State.answer_rspC (s : State) (r : Response) : (s.answer r).rspC = if s.port = .C then some r else s.rspC := rfl
@[simp] theorem State.answer_rspH (s : State) (r : Response) : (s.answer r).rspH = if s.port = .H then some r else s.rspH := rfl
@[simp] theorem State.answer_draws (s : State) (r : Response) : (s.answer r).draws = s.draws + 1 := rfl

@[simp] theorem State.respond_wr (s : State) (c : Word) (d : List Elem) (w : Desc) : (s.respond c d w).wr = s.wr := rfl
@[simp] theorem State.respond_rd (s : State) (c : Word) (d : List Elem) (w : Desc) : (s.respond c d w).rd = s.rd := rfl
@[simp] theorem State.respond_mem (s : State) (c : Word) (d : List Elem) (w : Desc) : (s.respond c d w).mem = s.mem := rfl
@[simp] theorem State.respond_spanOpen (s : State) (c : Word) (d : List Elem) (w : Desc) : (s.respond c d w).spanOpen = s.spanOpen := rfl
@[simp] theorem State.respond_spanLen (s : State) (c : Word) (d : List Elem) (w : Desc) : (s.respond c d w).spanLen = s.spanLen := rfl
@[simp] theorem State.respond_errP (s : State) (c : Word) (d : List Elem) (w : Desc) : (s.respond c d w).errP = s.errP := rfl
@[simp] theorem State.respond_errC (s : State) (c : Word) (d : List Elem) (w : Desc) : (s.respond c d w).errC = s.errC := rfl
@[simp] theorem State.respond_errH (s : State) (c : Word) (d : List Elem) (w : Desc) : (s.respond c d w).errH = s.errH := rfl
@[simp] theorem State.respond_cfgCap (s : State) (c : Word) (d : List Elem) (w : Desc) : (s.respond c d w).cfgCap = s.cfgCap := rfl
@[simp] theorem State.respond_cfgElemBytes (s : State) (c : Word) (d : List Elem) (w : Desc) : (s.respond c d w).cfgElemBytes = s.cfgElemBytes := rfl
@[simp] theorem State.respond_cfgElemKind (s : State) (c : Word) (d : List Elem) (w : Desc) : (s.respond c d w).cfgElemKind = s.cfgElemKind := rfl
@[simp] theorem State.respond_inP (s : State) (c : Word) (d : List Elem) (w : Desc) : (s.respond c d w).inP = s.inP := rfl
@[simp] theorem State.respond_inC (s : State) (c : Word) (d : List Elem) (w : Desc) : (s.respond c d w).inC = s.inC := rfl
@[simp] theorem State.respond_inH (s : State) (c : Word) (d : List Elem) (w : Desc) : (s.respond c d w).inH = s.inH := rfl
@[simp] theorem State.respond_port (s : State) (c : Word) (d : List Elem) (w : Desc) : (s.respond c d w).port = s.port := rfl
@[simp] theorem State.respond_wdata (s : State) (c : Word) (d : List Elem) (w : Desc) : (s.respond c d w).wdata = s.wdata := rfl
@[simp] theorem State.respond_rspP (s : State) (c : Word) (d : List Elem) (w : Desc) : (s.respond c d w).rspP = if s.port = .P then some ⟨.ok, c, d, w⟩ else s.rspP := rfl
@[simp] theorem State.respond_rspC (s : State) (c : Word) (d : List Elem) (w : Desc) : (s.respond c d w).rspC = if s.port = .C then some ⟨.ok, c, d, w⟩ else s.rspC := rfl
@[simp] theorem State.respond_rspH (s : State) (c : Word) (d : List Elem) (w : Desc) : (s.respond c d w).rspH = if s.port = .H then some ⟨.ok, c, d, w⟩ else s.rspH := rfl
@[simp] theorem State.respond_draws (s : State) (c : Word) (d : List Elem) (w : Desc) : (s.respond c d w).draws = s.draws + 1 := rfl

@[simp] theorem State.raiseErr_wr (s : State) (code : Status) : (s.raiseErr code).wr = s.wr := rfl
@[simp] theorem State.raiseErr_rd (s : State) (code : Status) : (s.raiseErr code).rd = s.rd := rfl
@[simp] theorem State.raiseErr_mem (s : State) (code : Status) : (s.raiseErr code).mem = s.mem := rfl
@[simp] theorem State.raiseErr_spanOpen (s : State) (code : Status) : (s.raiseErr code).spanOpen = s.spanOpen := rfl
@[simp] theorem State.raiseErr_spanLen (s : State) (code : Status) : (s.raiseErr code).spanLen = s.spanLen := rfl
@[simp] theorem State.raiseErr_errP (s : State) (code : Status) : (s.raiseErr code).errP = if s.port = .P then errRecord (s.errOf s.port) code.code else s.errP := rfl
@[simp] theorem State.raiseErr_errC (s : State) (code : Status) : (s.raiseErr code).errC = if s.port = .C then errRecord (s.errOf s.port) code.code else s.errC := rfl
@[simp] theorem State.raiseErr_errH (s : State) (code : Status) : (s.raiseErr code).errH = if s.port = .H then errRecord (s.errOf s.port) code.code else s.errH := rfl
@[simp] theorem State.raiseErr_cfgCap (s : State) (code : Status) : (s.raiseErr code).cfgCap = s.cfgCap := rfl
@[simp] theorem State.raiseErr_cfgElemBytes (s : State) (code : Status) : (s.raiseErr code).cfgElemBytes = s.cfgElemBytes := rfl
@[simp] theorem State.raiseErr_cfgElemKind (s : State) (code : Status) : (s.raiseErr code).cfgElemKind = s.cfgElemKind := rfl
@[simp] theorem State.raiseErr_inP (s : State) (code : Status) : (s.raiseErr code).inP = s.inP := rfl
@[simp] theorem State.raiseErr_inC (s : State) (code : Status) : (s.raiseErr code).inC = s.inC := rfl
@[simp] theorem State.raiseErr_inH (s : State) (code : Status) : (s.raiseErr code).inH = s.inH := rfl
@[simp] theorem State.raiseErr_port (s : State) (code : Status) : (s.raiseErr code).port = s.port := rfl
@[simp] theorem State.raiseErr_wdata (s : State) (code : Status) : (s.raiseErr code).wdata = s.wdata := rfl
@[simp] theorem State.raiseErr_rspP (s : State) (code : Status) : (s.raiseErr code).rspP = if s.port = .P then some (errorResponse code) else s.rspP := rfl
@[simp] theorem State.raiseErr_rspC (s : State) (code : Status) : (s.raiseErr code).rspC = if s.port = .C then some (errorResponse code) else s.rspC := rfl
@[simp] theorem State.raiseErr_rspH (s : State) (code : Status) : (s.raiseErr code).rspH = if s.port = .H then some (errorResponse code) else s.rspH := rfl
@[simp] theorem State.raiseErr_draws (s : State) (code : Status) : (s.raiseErr code).draws = s.draws + 1 := rfl

@[simp] theorem State.advanceWr_wr (s : State) (k : Nat) : (s.advanceWr k).wr = advance s.slotCount s.wr k := rfl
@[simp] theorem State.advanceWr_rd (s : State) (k : Nat) : (s.advanceWr k).rd = s.rd := rfl
@[simp] theorem State.advanceWr_mem (s : State) (k : Nat) : (s.advanceWr k).mem = s.mem := rfl
@[simp] theorem State.advanceWr_spanOpen (s : State) (k : Nat) : (s.advanceWr k).spanOpen = s.spanOpen := rfl
@[simp] theorem State.advanceWr_spanLen (s : State) (k : Nat) : (s.advanceWr k).spanLen = s.spanLen := rfl
@[simp] theorem State.advanceWr_errP (s : State) (k : Nat) : (s.advanceWr k).errP = s.errP := rfl
@[simp] theorem State.advanceWr_errC (s : State) (k : Nat) : (s.advanceWr k).errC = s.errC := rfl
@[simp] theorem State.advanceWr_errH (s : State) (k : Nat) : (s.advanceWr k).errH = s.errH := rfl
@[simp] theorem State.advanceWr_cfgCap (s : State) (k : Nat) : (s.advanceWr k).cfgCap = s.cfgCap := rfl
@[simp] theorem State.advanceWr_cfgElemBytes (s : State) (k : Nat) : (s.advanceWr k).cfgElemBytes = s.cfgElemBytes := rfl
@[simp] theorem State.advanceWr_cfgElemKind (s : State) (k : Nat) : (s.advanceWr k).cfgElemKind = s.cfgElemKind := rfl
@[simp] theorem State.advanceWr_inP (s : State) (k : Nat) : (s.advanceWr k).inP = s.inP := rfl
@[simp] theorem State.advanceWr_inC (s : State) (k : Nat) : (s.advanceWr k).inC = s.inC := rfl
@[simp] theorem State.advanceWr_inH (s : State) (k : Nat) : (s.advanceWr k).inH = s.inH := rfl
@[simp] theorem State.advanceWr_port (s : State) (k : Nat) : (s.advanceWr k).port = s.port := rfl
@[simp] theorem State.advanceWr_wdata (s : State) (k : Nat) : (s.advanceWr k).wdata = s.wdata := rfl
@[simp] theorem State.advanceWr_rspP (s : State) (k : Nat) : (s.advanceWr k).rspP = s.rspP := rfl
@[simp] theorem State.advanceWr_rspC (s : State) (k : Nat) : (s.advanceWr k).rspC = s.rspC := rfl
@[simp] theorem State.advanceWr_rspH (s : State) (k : Nat) : (s.advanceWr k).rspH = s.rspH := rfl
@[simp] theorem State.advanceWr_draws (s : State) (k : Nat) : (s.advanceWr k).draws = s.draws := rfl

@[simp] theorem State.advanceRd_wr (s : State) (k : Nat) : (s.advanceRd k).wr = s.wr := rfl
@[simp] theorem State.advanceRd_rd (s : State) (k : Nat) : (s.advanceRd k).rd = advance s.slotCount s.rd k := rfl
@[simp] theorem State.advanceRd_mem (s : State) (k : Nat) : (s.advanceRd k).mem = s.mem := rfl
@[simp] theorem State.advanceRd_spanOpen (s : State) (k : Nat) : (s.advanceRd k).spanOpen = s.spanOpen := rfl
@[simp] theorem State.advanceRd_spanLen (s : State) (k : Nat) : (s.advanceRd k).spanLen = s.spanLen := rfl
@[simp] theorem State.advanceRd_errP (s : State) (k : Nat) : (s.advanceRd k).errP = s.errP := rfl
@[simp] theorem State.advanceRd_errC (s : State) (k : Nat) : (s.advanceRd k).errC = s.errC := rfl
@[simp] theorem State.advanceRd_errH (s : State) (k : Nat) : (s.advanceRd k).errH = s.errH := rfl
@[simp] theorem State.advanceRd_cfgCap (s : State) (k : Nat) : (s.advanceRd k).cfgCap = s.cfgCap := rfl
@[simp] theorem State.advanceRd_cfgElemBytes (s : State) (k : Nat) : (s.advanceRd k).cfgElemBytes = s.cfgElemBytes := rfl
@[simp] theorem State.advanceRd_cfgElemKind (s : State) (k : Nat) : (s.advanceRd k).cfgElemKind = s.cfgElemKind := rfl
@[simp] theorem State.advanceRd_inP (s : State) (k : Nat) : (s.advanceRd k).inP = s.inP := rfl
@[simp] theorem State.advanceRd_inC (s : State) (k : Nat) : (s.advanceRd k).inC = s.inC := rfl
@[simp] theorem State.advanceRd_inH (s : State) (k : Nat) : (s.advanceRd k).inH = s.inH := rfl
@[simp] theorem State.advanceRd_port (s : State) (k : Nat) : (s.advanceRd k).port = s.port := rfl
@[simp] theorem State.advanceRd_wdata (s : State) (k : Nat) : (s.advanceRd k).wdata = s.wdata := rfl
@[simp] theorem State.advanceRd_rspP (s : State) (k : Nat) : (s.advanceRd k).rspP = s.rspP := rfl
@[simp] theorem State.advanceRd_rspC (s : State) (k : Nat) : (s.advanceRd k).rspC = s.rspC := rfl
@[simp] theorem State.advanceRd_rspH (s : State) (k : Nat) : (s.advanceRd k).rspH = s.rspH := rfl
@[simp] theorem State.advanceRd_draws (s : State) (k : Nat) : (s.advanceRd k).draws = s.draws := rfl

@[simp] theorem State.writeElems_wr (s : State) (j : Nat) (vs : List Elem) : (s.writeElems j vs).wr = s.wr := rfl
@[simp] theorem State.writeElems_rd (s : State) (j : Nat) (vs : List Elem) : (s.writeElems j vs).rd = s.rd := rfl
@[simp] theorem State.writeElems_mem (s : State) (j : Nat) (vs : List Elem) : (s.writeElems j vs).mem = Memory.writeElems s.elemBytes s.slotCount s.wr.toNat s.mem j vs := rfl
@[simp] theorem State.writeElems_spanOpen (s : State) (j : Nat) (vs : List Elem) : (s.writeElems j vs).spanOpen = s.spanOpen := rfl
@[simp] theorem State.writeElems_spanLen (s : State) (j : Nat) (vs : List Elem) : (s.writeElems j vs).spanLen = s.spanLen := rfl
@[simp] theorem State.writeElems_errP (s : State) (j : Nat) (vs : List Elem) : (s.writeElems j vs).errP = s.errP := rfl
@[simp] theorem State.writeElems_errC (s : State) (j : Nat) (vs : List Elem) : (s.writeElems j vs).errC = s.errC := rfl
@[simp] theorem State.writeElems_errH (s : State) (j : Nat) (vs : List Elem) : (s.writeElems j vs).errH = s.errH := rfl
@[simp] theorem State.writeElems_cfgCap (s : State) (j : Nat) (vs : List Elem) : (s.writeElems j vs).cfgCap = s.cfgCap := rfl
@[simp] theorem State.writeElems_cfgElemBytes (s : State) (j : Nat) (vs : List Elem) : (s.writeElems j vs).cfgElemBytes = s.cfgElemBytes := rfl
@[simp] theorem State.writeElems_cfgElemKind (s : State) (j : Nat) (vs : List Elem) : (s.writeElems j vs).cfgElemKind = s.cfgElemKind := rfl
@[simp] theorem State.writeElems_inP (s : State) (j : Nat) (vs : List Elem) : (s.writeElems j vs).inP = s.inP := rfl
@[simp] theorem State.writeElems_inC (s : State) (j : Nat) (vs : List Elem) : (s.writeElems j vs).inC = s.inC := rfl
@[simp] theorem State.writeElems_inH (s : State) (j : Nat) (vs : List Elem) : (s.writeElems j vs).inH = s.inH := rfl
@[simp] theorem State.writeElems_port (s : State) (j : Nat) (vs : List Elem) : (s.writeElems j vs).port = s.port := rfl
@[simp] theorem State.writeElems_wdata (s : State) (j : Nat) (vs : List Elem) : (s.writeElems j vs).wdata = s.wdata := rfl
@[simp] theorem State.writeElems_rspP (s : State) (j : Nat) (vs : List Elem) : (s.writeElems j vs).rspP = s.rspP := rfl
@[simp] theorem State.writeElems_rspC (s : State) (j : Nat) (vs : List Elem) : (s.writeElems j vs).rspC = s.rspC := rfl
@[simp] theorem State.writeElems_rspH (s : State) (j : Nat) (vs : List Elem) : (s.writeElems j vs).rspH = s.rspH := rfl
@[simp] theorem State.writeElems_draws (s : State) (j : Nat) (vs : List Elem) : (s.writeElems j vs).draws = s.draws := rfl

@[simp] theorem State.setWindow_wr (s : State) (b : Bool) (n : Word) : (s.setWindow b n).wr = s.wr := rfl
@[simp] theorem State.setWindow_rd (s : State) (b : Bool) (n : Word) : (s.setWindow b n).rd = s.rd := rfl
@[simp] theorem State.setWindow_mem (s : State) (b : Bool) (n : Word) : (s.setWindow b n).mem = s.mem := rfl
@[simp] theorem State.setWindow_spanOpen (s : State) (b : Bool) (n : Word) : (s.setWindow b n).spanOpen = b := rfl
@[simp] theorem State.setWindow_spanLen (s : State) (b : Bool) (n : Word) : (s.setWindow b n).spanLen = n := rfl
@[simp] theorem State.setWindow_errP (s : State) (b : Bool) (n : Word) : (s.setWindow b n).errP = s.errP := rfl
@[simp] theorem State.setWindow_errC (s : State) (b : Bool) (n : Word) : (s.setWindow b n).errC = s.errC := rfl
@[simp] theorem State.setWindow_errH (s : State) (b : Bool) (n : Word) : (s.setWindow b n).errH = s.errH := rfl
@[simp] theorem State.setWindow_cfgCap (s : State) (b : Bool) (n : Word) : (s.setWindow b n).cfgCap = s.cfgCap := rfl
@[simp] theorem State.setWindow_cfgElemBytes (s : State) (b : Bool) (n : Word) : (s.setWindow b n).cfgElemBytes = s.cfgElemBytes := rfl
@[simp] theorem State.setWindow_cfgElemKind (s : State) (b : Bool) (n : Word) : (s.setWindow b n).cfgElemKind = s.cfgElemKind := rfl
@[simp] theorem State.setWindow_inP (s : State) (b : Bool) (n : Word) : (s.setWindow b n).inP = s.inP := rfl
@[simp] theorem State.setWindow_inC (s : State) (b : Bool) (n : Word) : (s.setWindow b n).inC = s.inC := rfl
@[simp] theorem State.setWindow_inH (s : State) (b : Bool) (n : Word) : (s.setWindow b n).inH = s.inH := rfl
@[simp] theorem State.setWindow_port (s : State) (b : Bool) (n : Word) : (s.setWindow b n).port = s.port := rfl
@[simp] theorem State.setWindow_wdata (s : State) (b : Bool) (n : Word) : (s.setWindow b n).wdata = s.wdata := rfl
@[simp] theorem State.setWindow_rspP (s : State) (b : Bool) (n : Word) : (s.setWindow b n).rspP = s.rspP := rfl
@[simp] theorem State.setWindow_rspC (s : State) (b : Bool) (n : Word) : (s.setWindow b n).rspC = s.rspC := rfl
@[simp] theorem State.setWindow_rspH (s : State) (b : Bool) (n : Word) : (s.setWindow b n).rspH = s.rspH := rfl
@[simp] theorem State.setWindow_draws (s : State) (b : Bool) (n : Word) : (s.setWindow b n).draws = s.draws := rfl

@[simp] theorem State.resetState_wr (s : State) : (s.resetState).wr = 0#32 := rfl
@[simp] theorem State.resetState_rd (s : State) : (s.resetState).rd = 0#32 := rfl
@[simp] theorem State.resetState_mem (s : State) : (s.resetState).mem = [] := rfl
@[simp] theorem State.resetState_spanOpen (s : State) : (s.resetState).spanOpen = false := rfl
@[simp] theorem State.resetState_spanLen (s : State) : (s.resetState).spanLen = 0#32 := rfl
@[simp] theorem State.resetState_errP (s : State) : (s.resetState).errP = 0#5 := rfl
@[simp] theorem State.resetState_errC (s : State) : (s.resetState).errC = 0#5 := rfl
@[simp] theorem State.resetState_errH (s : State) : (s.resetState).errH = 0#5 := rfl
@[simp] theorem State.resetState_cfgCap (s : State) : (s.resetState).cfgCap = s.cfgCap := rfl
@[simp] theorem State.resetState_cfgElemBytes (s : State) : (s.resetState).cfgElemBytes = s.cfgElemBytes := rfl
@[simp] theorem State.resetState_cfgElemKind (s : State) : (s.resetState).cfgElemKind = s.cfgElemKind := rfl
@[simp] theorem State.resetState_inP (s : State) : (s.resetState).inP = s.inP := rfl
@[simp] theorem State.resetState_inC (s : State) : (s.resetState).inC = s.inC := rfl
@[simp] theorem State.resetState_inH (s : State) : (s.resetState).inH = s.inH := rfl
@[simp] theorem State.resetState_port (s : State) : (s.resetState).port = s.port := rfl
@[simp] theorem State.resetState_wdata (s : State) : (s.resetState).wdata = s.wdata := rfl
@[simp] theorem State.resetState_rspP (s : State) : (s.resetState).rspP = s.rspP := rfl
@[simp] theorem State.resetState_rspC (s : State) : (s.resetState).rspC = s.rspC := rfl
@[simp] theorem State.resetState_rspH (s : State) : (s.resetState).rspH = s.rspH := rfl
@[simp] theorem State.resetState_draws (s : State) : (s.resetState).draws = s.draws := rfl

@[simp] theorem State.atPort_wr (s : State) (x : Port) (d : List Elem) : (s.atPort x d).wr = s.wr := rfl
@[simp] theorem State.atPort_rd (s : State) (x : Port) (d : List Elem) : (s.atPort x d).rd = s.rd := rfl
@[simp] theorem State.atPort_mem (s : State) (x : Port) (d : List Elem) : (s.atPort x d).mem = s.mem := rfl
@[simp] theorem State.atPort_spanOpen (s : State) (x : Port) (d : List Elem) : (s.atPort x d).spanOpen = s.spanOpen := rfl
@[simp] theorem State.atPort_spanLen (s : State) (x : Port) (d : List Elem) : (s.atPort x d).spanLen = s.spanLen := rfl
@[simp] theorem State.atPort_errP (s : State) (x : Port) (d : List Elem) : (s.atPort x d).errP = s.errP := rfl
@[simp] theorem State.atPort_errC (s : State) (x : Port) (d : List Elem) : (s.atPort x d).errC = s.errC := rfl
@[simp] theorem State.atPort_errH (s : State) (x : Port) (d : List Elem) : (s.atPort x d).errH = s.errH := rfl
@[simp] theorem State.atPort_cfgCap (s : State) (x : Port) (d : List Elem) : (s.atPort x d).cfgCap = s.cfgCap := rfl
@[simp] theorem State.atPort_cfgElemBytes (s : State) (x : Port) (d : List Elem) : (s.atPort x d).cfgElemBytes = s.cfgElemBytes := rfl
@[simp] theorem State.atPort_cfgElemKind (s : State) (x : Port) (d : List Elem) : (s.atPort x d).cfgElemKind = s.cfgElemKind := rfl
@[simp] theorem State.atPort_inP (s : State) (x : Port) (d : List Elem) : (s.atPort x d).inP = s.inP := rfl
@[simp] theorem State.atPort_inC (s : State) (x : Port) (d : List Elem) : (s.atPort x d).inC = s.inC := rfl
@[simp] theorem State.atPort_inH (s : State) (x : Port) (d : List Elem) : (s.atPort x d).inH = s.inH := rfl
@[simp] theorem State.atPort_port (s : State) (x : Port) (d : List Elem) : (s.atPort x d).port = x := rfl
@[simp] theorem State.atPort_wdata (s : State) (x : Port) (d : List Elem) : (s.atPort x d).wdata = d := rfl
@[simp] theorem State.atPort_rspP (s : State) (x : Port) (d : List Elem) : (s.atPort x d).rspP = s.rspP := rfl
@[simp] theorem State.atPort_rspC (s : State) (x : Port) (d : List Elem) : (s.atPort x d).rspC = s.rspC := rfl
@[simp] theorem State.atPort_rspH (s : State) (x : Port) (d : List Elem) : (s.atPort x d).rspH = s.rspH := rfl
@[simp] theorem State.atPort_draws (s : State) (x : Port) (d : List Elem) : (s.atPort x d).draws = s.draws := rfl

@[simp] theorem State.consume_wr (s : State) (t : State) : (s.consume t).wr = t.wr := rfl
@[simp] theorem State.consume_rd (s : State) (t : State) : (s.consume t).rd = t.rd := rfl
@[simp] theorem State.consume_mem (s : State) (t : State) : (s.consume t).mem = t.mem := rfl
@[simp] theorem State.consume_spanOpen (s : State) (t : State) : (s.consume t).spanOpen = t.spanOpen := rfl
@[simp] theorem State.consume_spanLen (s : State) (t : State) : (s.consume t).spanLen = t.spanLen := rfl
@[simp] theorem State.consume_errP (s : State) (t : State) : (s.consume t).errP = t.errP := rfl
@[simp] theorem State.consume_errC (s : State) (t : State) : (s.consume t).errC = t.errC := rfl
@[simp] theorem State.consume_errH (s : State) (t : State) : (s.consume t).errH = t.errH := rfl
@[simp] theorem State.consume_cfgCap (s : State) (t : State) : (s.consume t).cfgCap = t.cfgCap := rfl
@[simp] theorem State.consume_cfgElemBytes (s : State) (t : State) : (s.consume t).cfgElemBytes = t.cfgElemBytes := rfl
@[simp] theorem State.consume_cfgElemKind (s : State) (t : State) : (s.consume t).cfgElemKind = t.cfgElemKind := rfl
@[simp] theorem State.consume_inP (s : State) (t : State) : (s.consume t).inP = s.inP.tail := rfl
@[simp] theorem State.consume_inC (s : State) (t : State) : (s.consume t).inC = s.inC.tail := rfl
@[simp] theorem State.consume_inH (s : State) (t : State) : (s.consume t).inH = s.inH.tail := rfl
@[simp] theorem State.consume_port (s : State) (t : State) : (s.consume t).port = s.port := rfl
@[simp] theorem State.consume_wdata (s : State) (t : State) : (s.consume t).wdata = s.wdata := rfl
@[simp] theorem State.consume_rspP (s : State) (t : State) : (s.consume t).rspP = t.rspP := rfl
@[simp] theorem State.consume_rspC (s : State) (t : State) : (s.consume t).rspC = t.rspC := rfl
@[simp] theorem State.consume_rspH (s : State) (t : State) : (s.consume t).rspH = t.rspH := rfl
@[simp] theorem State.consume_draws (s : State) (t : State) : (s.consume t).draws = s.draws + 1 := rfl

@[simp] theorem State.presentNext_wr (s : State) (x : Port) (t : Transaction) : (s.presentNext x t).wr = s.wr := rfl
@[simp] theorem State.presentNext_rd (s : State) (x : Port) (t : Transaction) : (s.presentNext x t).rd = s.rd := rfl
@[simp] theorem State.presentNext_mem (s : State) (x : Port) (t : Transaction) : (s.presentNext x t).mem = s.mem := rfl
@[simp] theorem State.presentNext_spanOpen (s : State) (x : Port) (t : Transaction) : (s.presentNext x t).spanOpen = s.spanOpen := rfl
@[simp] theorem State.presentNext_spanLen (s : State) (x : Port) (t : Transaction) : (s.presentNext x t).spanLen = s.spanLen := rfl
@[simp] theorem State.presentNext_errP (s : State) (x : Port) (t : Transaction) : (s.presentNext x t).errP = s.errP := rfl
@[simp] theorem State.presentNext_errC (s : State) (x : Port) (t : Transaction) : (s.presentNext x t).errC = s.errC := rfl
@[simp] theorem State.presentNext_errH (s : State) (x : Port) (t : Transaction) : (s.presentNext x t).errH = s.errH := rfl
@[simp] theorem State.presentNext_cfgCap (s : State) (x : Port) (t : Transaction) : (s.presentNext x t).cfgCap = s.cfgCap := rfl
@[simp] theorem State.presentNext_cfgElemBytes (s : State) (x : Port) (t : Transaction) : (s.presentNext x t).cfgElemBytes = s.cfgElemBytes := rfl
@[simp] theorem State.presentNext_cfgElemKind (s : State) (x : Port) (t : Transaction) : (s.presentNext x t).cfgElemKind = s.cfgElemKind := rfl
@[simp] theorem State.presentNext_inP (s : State) (x : Port) (t : Transaction) : (s.presentNext x t).inP = (if x = .P then some t else none) :: s.inP := rfl
@[simp] theorem State.presentNext_inC (s : State) (x : Port) (t : Transaction) : (s.presentNext x t).inC = (if x = .C then some t else none) :: s.inC := rfl
@[simp] theorem State.presentNext_inH (s : State) (x : Port) (t : Transaction) : (s.presentNext x t).inH = (if x = .H then some t else none) :: s.inH := rfl
@[simp] theorem State.presentNext_port (s : State) (x : Port) (t : Transaction) : (s.presentNext x t).port = s.port := rfl
@[simp] theorem State.presentNext_wdata (s : State) (x : Port) (t : Transaction) : (s.presentNext x t).wdata = s.wdata := rfl
@[simp] theorem State.presentNext_rspP (s : State) (x : Port) (t : Transaction) : (s.presentNext x t).rspP = s.rspP := rfl
@[simp] theorem State.presentNext_rspC (s : State) (x : Port) (t : Transaction) : (s.presentNext x t).rspC = s.rspC := rfl
@[simp] theorem State.presentNext_rspH (s : State) (x : Port) (t : Transaction) : (s.presentNext x t).rspH = s.rspH := rfl
@[simp] theorem State.presentNext_draws (s : State) (x : Port) (t : Transaction) : (s.presentNext x t).draws = s.draws := rfl

@[simp] theorem merge_wr (s p c h : State) : (merge s p c h).wr = p.wr := rfl
@[simp] theorem merge_rd (s p c h : State) : (merge s p c h).rd = c.rd := rfl
@[simp] theorem merge_mem (s p c h : State) : (merge s p c h).mem = p.mem := rfl
@[simp] theorem merge_spanOpen (s p c h : State) : (merge s p c h).spanOpen = p.spanOpen := rfl
@[simp] theorem merge_spanLen (s p c h : State) : (merge s p c h).spanLen = p.spanLen := rfl
@[simp] theorem merge_errP (s p c h : State) : (merge s p c h).errP = p.errP := rfl
@[simp] theorem merge_errC (s p c h : State) : (merge s p c h).errC = c.errC := rfl
@[simp] theorem merge_errH (s p c h : State) : (merge s p c h).errH = h.errH := rfl
@[simp] theorem merge_cfgCap (s p c h : State) : (merge s p c h).cfgCap = s.cfgCap := rfl
@[simp] theorem merge_cfgElemBytes (s p c h : State) : (merge s p c h).cfgElemBytes = s.cfgElemBytes := rfl
@[simp] theorem merge_cfgElemKind (s p c h : State) : (merge s p c h).cfgElemKind = s.cfgElemKind := rfl
@[simp] theorem merge_inP (s p c h : State) : (merge s p c h).inP = s.inP := rfl
@[simp] theorem merge_inC (s p c h : State) : (merge s p c h).inC = s.inC := rfl
@[simp] theorem merge_inH (s p c h : State) : (merge s p c h).inH = s.inH := rfl
@[simp] theorem merge_port (s p c h : State) : (merge s p c h).port = s.port := rfl
@[simp] theorem merge_wdata (s p c h : State) : (merge s p c h).wdata = s.wdata := rfl
@[simp] theorem merge_rspP (s p c h : State) : (merge s p c h).rspP = p.rspP := rfl
@[simp] theorem merge_rspC (s p c h : State) : (merge s p c h).rspC = c.rspC := rfl
@[simp] theorem merge_rspH (s p c h : State) : (merge s p c h).rspH = h.rspH := rfl
@[simp] theorem merge_draws (s p c h : State) : (merge s p c h).draws = s.draws := rfl

@[simp] theorem State.resetWith_wr (p : Params) : (State.resetWith p).wr = 0#32 := rfl
@[simp] theorem State.resetWith_rd (p : Params) : (State.resetWith p).rd = 0#32 := rfl
@[simp] theorem State.resetWith_mem (p : Params) : (State.resetWith p).mem = [] := rfl
@[simp] theorem State.resetWith_spanOpen (p : Params) : (State.resetWith p).spanOpen = false := rfl
@[simp] theorem State.resetWith_spanLen (p : Params) : (State.resetWith p).spanLen = 0#32 := rfl
@[simp] theorem State.resetWith_errP (p : Params) : (State.resetWith p).errP = 0#5 := rfl
@[simp] theorem State.resetWith_errC (p : Params) : (State.resetWith p).errC = 0#5 := rfl
@[simp] theorem State.resetWith_errH (p : Params) : (State.resetWith p).errH = 0#5 := rfl
@[simp] theorem State.resetWith_cfgCap (p : Params) : (State.resetWith p).cfgCap = BitVec.ofNat 32 p.cap := rfl
@[simp] theorem State.resetWith_cfgElemBytes (p : Params) : (State.resetWith p).cfgElemBytes = BitVec.ofNat 8 p.elemBytes := rfl
@[simp] theorem State.resetWith_cfgElemKind (p : Params) : (State.resetWith p).cfgElemKind = BitVec.ofNat 8 p.elemKind := rfl
@[simp] theorem State.resetWith_inP (p : Params) : (State.resetWith p).inP = [] := rfl
@[simp] theorem State.resetWith_inC (p : Params) : (State.resetWith p).inC = [] := rfl
@[simp] theorem State.resetWith_inH (p : Params) : (State.resetWith p).inH = [] := rfl
@[simp] theorem State.resetWith_port (p : Params) : (State.resetWith p).port = .P := rfl
@[simp] theorem State.resetWith_wdata (p : Params) : (State.resetWith p).wdata = [] := rfl
@[simp] theorem State.resetWith_rspP (p : Params) : (State.resetWith p).rspP = none := rfl
@[simp] theorem State.resetWith_rspC (p : Params) : (State.resetWith p).rspC = none := rfl
@[simp] theorem State.resetWith_rspH (p : Params) : (State.resetWith p).rspH = none := rfl
@[simp] theorem State.resetWith_draws (p : Params) : (State.resetWith p).draws = 0 := rfl

@[simp] theorem State.setRsp_cap (s : State) (x : Port) (r : Option Response) : (s.setRsp x r).cap = s.cap := rfl
@[simp] theorem State.setRsp_elemBytes (s : State) (x : Port) (r : Option Response) : (s.setRsp x r).elemBytes = s.elemBytes := rfl
@[simp] theorem State.setRsp_slotCount (s : State) (x : Port) (r : Option Response) : (s.setRsp x r).slotCount = s.slotCount := rfl
@[simp] theorem State.setRsp_segBytes (s : State) (x : Port) (r : Option Response) : (s.setRsp x r).segBytes = s.segBytes := rfl
@[simp] theorem State.setRsp_params (s : State) (x : Port) (r : Option Response) : (s.setRsp x r).params = s.params := rfl
@[simp] theorem State.setRsp_availableRead (s : State) (x : Port) (r : Option Response) : (s.setRsp x r).availableRead = s.availableRead := rfl
@[simp] theorem State.setRsp_availableWrite (s : State) (x : Port) (r : Option Response) : (s.setRsp x r).availableWrite = s.availableWrite := rfl
@[simp] theorem State.setRsp_slot (s : State) (x : Port) (r : Option Response) (i : Nat) : (s.setRsp x r).slot i = s.slot i := by rfl
@[simp] theorem State.setRsp_isEmpty (s : State) (x : Port) (r : Option Response) : (s.setRsp x r).isEmpty = s.isEmpty := rfl
@[simp] theorem State.setRsp_isFull (s : State) (x : Port) (r : Option Response) : (s.setRsp x r).isFull = s.isFull := rfl
@[simp] theorem State.setRsp_errOf (s : State) (x : Port) (r : Option Response) (y : Port) : (s.setRsp x r).errOf y = s.errOf y := by cases y <;> rfl
@[simp] theorem State.setRsp_inputOf (s : State) (x : Port) (r : Option Response) (y : Port) : (s.setRsp x r).inputOf y = s.inputOf y := by cases y <;> rfl
@[simp] theorem State.setRsp_resets (s : State) (x : Port) (r : Option Response) : (s.setRsp x r).resets = s.resets := rfl
@[simp] theorem State.setRsp_sessionOver (s : State) (x : Port) (r : Option Response) : (s.setRsp x r).sessionOver = s.sessionOver := rfl

@[simp] theorem State.setErr_cap (s : State) (x : Port) (e : BitVec 5) : (s.setErr x e).cap = s.cap := rfl
@[simp] theorem State.setErr_elemBytes (s : State) (x : Port) (e : BitVec 5) : (s.setErr x e).elemBytes = s.elemBytes := rfl
@[simp] theorem State.setErr_slotCount (s : State) (x : Port) (e : BitVec 5) : (s.setErr x e).slotCount = s.slotCount := rfl
@[simp] theorem State.setErr_segBytes (s : State) (x : Port) (e : BitVec 5) : (s.setErr x e).segBytes = s.segBytes := rfl
@[simp] theorem State.setErr_params (s : State) (x : Port) (e : BitVec 5) : (s.setErr x e).params = s.params := rfl
@[simp] theorem State.setErr_availableRead (s : State) (x : Port) (e : BitVec 5) : (s.setErr x e).availableRead = s.availableRead := rfl
@[simp] theorem State.setErr_availableWrite (s : State) (x : Port) (e : BitVec 5) : (s.setErr x e).availableWrite = s.availableWrite := rfl
@[simp] theorem State.setErr_slot (s : State) (x : Port) (e : BitVec 5) (i : Nat) : (s.setErr x e).slot i = s.slot i := by rfl
@[simp] theorem State.setErr_isEmpty (s : State) (x : Port) (e : BitVec 5) : (s.setErr x e).isEmpty = s.isEmpty := rfl
@[simp] theorem State.setErr_isFull (s : State) (x : Port) (e : BitVec 5) : (s.setErr x e).isFull = s.isFull := rfl
@[simp] theorem State.setErr_inputOf (s : State) (x : Port) (e : BitVec 5) (y : Port) : (s.setErr x e).inputOf y = s.inputOf y := by cases y <;> rfl
@[simp] theorem State.setErr_resets (s : State) (x : Port) (e : BitVec 5) : (s.setErr x e).resets = s.resets := rfl
@[simp] theorem State.setErr_sessionOver (s : State) (x : Port) (e : BitVec 5) : (s.setErr x e).sessionOver = s.sessionOver := rfl

@[simp] theorem State.nextDraws_cap (s : State) : (s.nextDraws).cap = s.cap := rfl
@[simp] theorem State.nextDraws_elemBytes (s : State) : (s.nextDraws).elemBytes = s.elemBytes := rfl
@[simp] theorem State.nextDraws_slotCount (s : State) : (s.nextDraws).slotCount = s.slotCount := rfl
@[simp] theorem State.nextDraws_segBytes (s : State) : (s.nextDraws).segBytes = s.segBytes := rfl
@[simp] theorem State.nextDraws_params (s : State) : (s.nextDraws).params = s.params := rfl
@[simp] theorem State.nextDraws_availableRead (s : State) : (s.nextDraws).availableRead = s.availableRead := rfl
@[simp] theorem State.nextDraws_availableWrite (s : State) : (s.nextDraws).availableWrite = s.availableWrite := rfl
@[simp] theorem State.nextDraws_slot (s : State) (i : Nat) : (s.nextDraws).slot i = s.slot i := by rfl
@[simp] theorem State.nextDraws_isEmpty (s : State) : (s.nextDraws).isEmpty = s.isEmpty := rfl
@[simp] theorem State.nextDraws_isFull (s : State) : (s.nextDraws).isFull = s.isFull := rfl
@[simp] theorem State.nextDraws_errOf (s : State) (x : Port) : (s.nextDraws).errOf x = s.errOf x := by cases x <;> rfl
@[simp] theorem State.nextDraws_inputOf (s : State) (x : Port) : (s.nextDraws).inputOf x = s.inputOf x := by cases x <;> rfl
@[simp] theorem State.nextDraws_resets (s : State) : (s.nextDraws).resets = s.resets := rfl
@[simp] theorem State.nextDraws_sessionOver (s : State) : (s.nextDraws).sessionOver = s.sessionOver := rfl

@[simp] theorem State.answer_cap (s : State) (r : Response) : (s.answer r).cap = s.cap := rfl
@[simp] theorem State.answer_elemBytes (s : State) (r : Response) : (s.answer r).elemBytes = s.elemBytes := rfl
@[simp] theorem State.answer_slotCount (s : State) (r : Response) : (s.answer r).slotCount = s.slotCount := rfl
@[simp] theorem State.answer_segBytes (s : State) (r : Response) : (s.answer r).segBytes = s.segBytes := rfl
@[simp] theorem State.answer_params (s : State) (r : Response) : (s.answer r).params = s.params := rfl
@[simp] theorem State.answer_availableRead (s : State) (r : Response) : (s.answer r).availableRead = s.availableRead := rfl
@[simp] theorem State.answer_availableWrite (s : State) (r : Response) : (s.answer r).availableWrite = s.availableWrite := rfl
@[simp] theorem State.answer_slot (s : State) (r : Response) (i : Nat) : (s.answer r).slot i = s.slot i := by rfl
@[simp] theorem State.answer_isEmpty (s : State) (r : Response) : (s.answer r).isEmpty = s.isEmpty := rfl
@[simp] theorem State.answer_isFull (s : State) (r : Response) : (s.answer r).isFull = s.isFull := rfl
@[simp] theorem State.answer_errOf (s : State) (r : Response) (x : Port) : (s.answer r).errOf x = s.errOf x := by cases x <;> rfl
@[simp] theorem State.answer_inputOf (s : State) (r : Response) (x : Port) : (s.answer r).inputOf x = s.inputOf x := by cases x <;> rfl
@[simp] theorem State.answer_resets (s : State) (r : Response) : (s.answer r).resets = s.resets := rfl
@[simp] theorem State.answer_sessionOver (s : State) (r : Response) : (s.answer r).sessionOver = s.sessionOver := rfl

@[simp] theorem State.respond_cap (s : State) (c : Word) (d : List Elem) (w : Desc) : (s.respond c d w).cap = s.cap := rfl
@[simp] theorem State.respond_elemBytes (s : State) (c : Word) (d : List Elem) (w : Desc) : (s.respond c d w).elemBytes = s.elemBytes := rfl
@[simp] theorem State.respond_slotCount (s : State) (c : Word) (d : List Elem) (w : Desc) : (s.respond c d w).slotCount = s.slotCount := rfl
@[simp] theorem State.respond_segBytes (s : State) (c : Word) (d : List Elem) (w : Desc) : (s.respond c d w).segBytes = s.segBytes := rfl
@[simp] theorem State.respond_params (s : State) (c : Word) (d : List Elem) (w : Desc) : (s.respond c d w).params = s.params := rfl
@[simp] theorem State.respond_availableRead (s : State) (c : Word) (d : List Elem) (w : Desc) : (s.respond c d w).availableRead = s.availableRead := rfl
@[simp] theorem State.respond_availableWrite (s : State) (c : Word) (d : List Elem) (w : Desc) : (s.respond c d w).availableWrite = s.availableWrite := rfl
@[simp] theorem State.respond_slot (s : State) (c : Word) (d : List Elem) (w : Desc) (i : Nat) : (s.respond c d w).slot i = s.slot i := by rfl
@[simp] theorem State.respond_isEmpty (s : State) (c : Word) (d : List Elem) (w : Desc) : (s.respond c d w).isEmpty = s.isEmpty := rfl
@[simp] theorem State.respond_isFull (s : State) (c : Word) (d : List Elem) (w : Desc) : (s.respond c d w).isFull = s.isFull := rfl
@[simp] theorem State.respond_errOf (s : State) (c : Word) (d : List Elem) (w : Desc) (x : Port) : (s.respond c d w).errOf x = s.errOf x := by cases x <;> rfl
@[simp] theorem State.respond_inputOf (s : State) (c : Word) (d : List Elem) (w : Desc) (x : Port) : (s.respond c d w).inputOf x = s.inputOf x := by cases x <;> rfl
@[simp] theorem State.respond_resets (s : State) (c : Word) (d : List Elem) (w : Desc) : (s.respond c d w).resets = s.resets := rfl
@[simp] theorem State.respond_sessionOver (s : State) (c : Word) (d : List Elem) (w : Desc) : (s.respond c d w).sessionOver = s.sessionOver := rfl

@[simp] theorem State.raiseErr_cap (s : State) (code : Status) : (s.raiseErr code).cap = s.cap := rfl
@[simp] theorem State.raiseErr_elemBytes (s : State) (code : Status) : (s.raiseErr code).elemBytes = s.elemBytes := rfl
@[simp] theorem State.raiseErr_slotCount (s : State) (code : Status) : (s.raiseErr code).slotCount = s.slotCount := rfl
@[simp] theorem State.raiseErr_segBytes (s : State) (code : Status) : (s.raiseErr code).segBytes = s.segBytes := rfl
@[simp] theorem State.raiseErr_params (s : State) (code : Status) : (s.raiseErr code).params = s.params := rfl
@[simp] theorem State.raiseErr_availableRead (s : State) (code : Status) : (s.raiseErr code).availableRead = s.availableRead := rfl
@[simp] theorem State.raiseErr_availableWrite (s : State) (code : Status) : (s.raiseErr code).availableWrite = s.availableWrite := rfl
@[simp] theorem State.raiseErr_slot (s : State) (code : Status) (i : Nat) : (s.raiseErr code).slot i = s.slot i := by rfl
@[simp] theorem State.raiseErr_isEmpty (s : State) (code : Status) : (s.raiseErr code).isEmpty = s.isEmpty := rfl
@[simp] theorem State.raiseErr_isFull (s : State) (code : Status) : (s.raiseErr code).isFull = s.isFull := rfl
@[simp] theorem State.raiseErr_inputOf (s : State) (code : Status) (x : Port) : (s.raiseErr code).inputOf x = s.inputOf x := by cases x <;> rfl
@[simp] theorem State.raiseErr_resets (s : State) (code : Status) : (s.raiseErr code).resets = s.resets := rfl
@[simp] theorem State.raiseErr_sessionOver (s : State) (code : Status) : (s.raiseErr code).sessionOver = s.sessionOver := rfl

@[simp] theorem State.advanceWr_cap (s : State) (k : Nat) : (s.advanceWr k).cap = s.cap := rfl
@[simp] theorem State.advanceWr_elemBytes (s : State) (k : Nat) : (s.advanceWr k).elemBytes = s.elemBytes := rfl
@[simp] theorem State.advanceWr_slotCount (s : State) (k : Nat) : (s.advanceWr k).slotCount = s.slotCount := rfl
@[simp] theorem State.advanceWr_segBytes (s : State) (k : Nat) : (s.advanceWr k).segBytes = s.segBytes := rfl
@[simp] theorem State.advanceWr_params (s : State) (k : Nat) : (s.advanceWr k).params = s.params := rfl
@[simp] theorem State.advanceWr_slot (s : State) (k : Nat) (i : Nat) : (s.advanceWr k).slot i = s.slot i := by rfl
@[simp] theorem State.advanceWr_errOf (s : State) (k : Nat) (x : Port) : (s.advanceWr k).errOf x = s.errOf x := by cases x <;> rfl
@[simp] theorem State.advanceWr_inputOf (s : State) (k : Nat) (x : Port) : (s.advanceWr k).inputOf x = s.inputOf x := by cases x <;> rfl
@[simp] theorem State.advanceWr_resets (s : State) (k : Nat) : (s.advanceWr k).resets = s.resets := rfl
@[simp] theorem State.advanceWr_sessionOver (s : State) (k : Nat) : (s.advanceWr k).sessionOver = s.sessionOver := rfl

@[simp] theorem State.advanceRd_cap (s : State) (k : Nat) : (s.advanceRd k).cap = s.cap := rfl
@[simp] theorem State.advanceRd_elemBytes (s : State) (k : Nat) : (s.advanceRd k).elemBytes = s.elemBytes := rfl
@[simp] theorem State.advanceRd_slotCount (s : State) (k : Nat) : (s.advanceRd k).slotCount = s.slotCount := rfl
@[simp] theorem State.advanceRd_segBytes (s : State) (k : Nat) : (s.advanceRd k).segBytes = s.segBytes := rfl
@[simp] theorem State.advanceRd_params (s : State) (k : Nat) : (s.advanceRd k).params = s.params := rfl
@[simp] theorem State.advanceRd_slot (s : State) (k : Nat) (i : Nat) : (s.advanceRd k).slot i = s.slot i := by rfl
@[simp] theorem State.advanceRd_errOf (s : State) (k : Nat) (x : Port) : (s.advanceRd k).errOf x = s.errOf x := by cases x <;> rfl
@[simp] theorem State.advanceRd_inputOf (s : State) (k : Nat) (x : Port) : (s.advanceRd k).inputOf x = s.inputOf x := by cases x <;> rfl
@[simp] theorem State.advanceRd_resets (s : State) (k : Nat) : (s.advanceRd k).resets = s.resets := rfl
@[simp] theorem State.advanceRd_sessionOver (s : State) (k : Nat) : (s.advanceRd k).sessionOver = s.sessionOver := rfl

@[simp] theorem State.writeElems_cap (s : State) (j : Nat) (vs : List Elem) : (s.writeElems j vs).cap = s.cap := rfl
@[simp] theorem State.writeElems_elemBytes (s : State) (j : Nat) (vs : List Elem) : (s.writeElems j vs).elemBytes = s.elemBytes := rfl
@[simp] theorem State.writeElems_slotCount (s : State) (j : Nat) (vs : List Elem) : (s.writeElems j vs).slotCount = s.slotCount := rfl
@[simp] theorem State.writeElems_segBytes (s : State) (j : Nat) (vs : List Elem) : (s.writeElems j vs).segBytes = s.segBytes := rfl
@[simp] theorem State.writeElems_params (s : State) (j : Nat) (vs : List Elem) : (s.writeElems j vs).params = s.params := rfl
@[simp] theorem State.writeElems_availableRead (s : State) (j : Nat) (vs : List Elem) : (s.writeElems j vs).availableRead = s.availableRead := rfl
@[simp] theorem State.writeElems_availableWrite (s : State) (j : Nat) (vs : List Elem) : (s.writeElems j vs).availableWrite = s.availableWrite := rfl
@[simp] theorem State.writeElems_isEmpty (s : State) (j : Nat) (vs : List Elem) : (s.writeElems j vs).isEmpty = s.isEmpty := rfl
@[simp] theorem State.writeElems_isFull (s : State) (j : Nat) (vs : List Elem) : (s.writeElems j vs).isFull = s.isFull := rfl
@[simp] theorem State.writeElems_errOf (s : State) (j : Nat) (vs : List Elem) (x : Port) : (s.writeElems j vs).errOf x = s.errOf x := by cases x <;> rfl
@[simp] theorem State.writeElems_inputOf (s : State) (j : Nat) (vs : List Elem) (x : Port) : (s.writeElems j vs).inputOf x = s.inputOf x := by cases x <;> rfl
@[simp] theorem State.writeElems_resets (s : State) (j : Nat) (vs : List Elem) : (s.writeElems j vs).resets = s.resets := rfl
@[simp] theorem State.writeElems_sessionOver (s : State) (j : Nat) (vs : List Elem) : (s.writeElems j vs).sessionOver = s.sessionOver := rfl

@[simp] theorem State.setWindow_cap (s : State) (b : Bool) (n : Word) : (s.setWindow b n).cap = s.cap := rfl
@[simp] theorem State.setWindow_elemBytes (s : State) (b : Bool) (n : Word) : (s.setWindow b n).elemBytes = s.elemBytes := rfl
@[simp] theorem State.setWindow_slotCount (s : State) (b : Bool) (n : Word) : (s.setWindow b n).slotCount = s.slotCount := rfl
@[simp] theorem State.setWindow_segBytes (s : State) (b : Bool) (n : Word) : (s.setWindow b n).segBytes = s.segBytes := rfl
@[simp] theorem State.setWindow_params (s : State) (b : Bool) (n : Word) : (s.setWindow b n).params = s.params := rfl
@[simp] theorem State.setWindow_availableRead (s : State) (b : Bool) (n : Word) : (s.setWindow b n).availableRead = s.availableRead := rfl
@[simp] theorem State.setWindow_availableWrite (s : State) (b : Bool) (n : Word) : (s.setWindow b n).availableWrite = s.availableWrite := rfl
@[simp] theorem State.setWindow_slot (s : State) (b : Bool) (n : Word) (i : Nat) : (s.setWindow b n).slot i = s.slot i := by rfl
@[simp] theorem State.setWindow_isEmpty (s : State) (b : Bool) (n : Word) : (s.setWindow b n).isEmpty = s.isEmpty := rfl
@[simp] theorem State.setWindow_isFull (s : State) (b : Bool) (n : Word) : (s.setWindow b n).isFull = s.isFull := rfl
@[simp] theorem State.setWindow_errOf (s : State) (b : Bool) (n : Word) (x : Port) : (s.setWindow b n).errOf x = s.errOf x := by cases x <;> rfl
@[simp] theorem State.setWindow_inputOf (s : State) (b : Bool) (n : Word) (x : Port) : (s.setWindow b n).inputOf x = s.inputOf x := by cases x <;> rfl
@[simp] theorem State.setWindow_resets (s : State) (b : Bool) (n : Word) : (s.setWindow b n).resets = s.resets := rfl
@[simp] theorem State.setWindow_sessionOver (s : State) (b : Bool) (n : Word) : (s.setWindow b n).sessionOver = s.sessionOver := rfl

@[simp] theorem State.resetState_cap (s : State) : (s.resetState).cap = s.cap := rfl
@[simp] theorem State.resetState_elemBytes (s : State) : (s.resetState).elemBytes = s.elemBytes := rfl
@[simp] theorem State.resetState_slotCount (s : State) : (s.resetState).slotCount = s.slotCount := rfl
@[simp] theorem State.resetState_segBytes (s : State) : (s.resetState).segBytes = s.segBytes := rfl
@[simp] theorem State.resetState_params (s : State) : (s.resetState).params = s.params := rfl
@[simp] theorem State.resetState_inputOf (s : State) (x : Port) : (s.resetState).inputOf x = s.inputOf x := by cases x <;> rfl
@[simp] theorem State.resetState_resets (s : State) : (s.resetState).resets = s.resets := rfl
@[simp] theorem State.resetState_sessionOver (s : State) : (s.resetState).sessionOver = s.sessionOver := rfl

@[simp] theorem State.atPort_cap (s : State) (x : Port) (d : List Elem) : (s.atPort x d).cap = s.cap := rfl
@[simp] theorem State.atPort_elemBytes (s : State) (x : Port) (d : List Elem) : (s.atPort x d).elemBytes = s.elemBytes := rfl
@[simp] theorem State.atPort_slotCount (s : State) (x : Port) (d : List Elem) : (s.atPort x d).slotCount = s.slotCount := rfl
@[simp] theorem State.atPort_segBytes (s : State) (x : Port) (d : List Elem) : (s.atPort x d).segBytes = s.segBytes := rfl
@[simp] theorem State.atPort_params (s : State) (x : Port) (d : List Elem) : (s.atPort x d).params = s.params := rfl
@[simp] theorem State.atPort_availableRead (s : State) (x : Port) (d : List Elem) : (s.atPort x d).availableRead = s.availableRead := rfl
@[simp] theorem State.atPort_availableWrite (s : State) (x : Port) (d : List Elem) : (s.atPort x d).availableWrite = s.availableWrite := rfl
@[simp] theorem State.atPort_slot (s : State) (x : Port) (d : List Elem) (i : Nat) : (s.atPort x d).slot i = s.slot i := by rfl
@[simp] theorem State.atPort_isEmpty (s : State) (x : Port) (d : List Elem) : (s.atPort x d).isEmpty = s.isEmpty := rfl
@[simp] theorem State.atPort_isFull (s : State) (x : Port) (d : List Elem) : (s.atPort x d).isFull = s.isFull := rfl
@[simp] theorem State.atPort_errOf (s : State) (x : Port) (d : List Elem) (y : Port) : (s.atPort x d).errOf y = s.errOf y := by cases y <;> rfl
@[simp] theorem State.atPort_inputOf (s : State) (x : Port) (d : List Elem) (y : Port) : (s.atPort x d).inputOf y = s.inputOf y := by cases y <;> rfl
@[simp] theorem State.atPort_resets (s : State) (x : Port) (d : List Elem) : (s.atPort x d).resets = s.resets := rfl
@[simp] theorem State.atPort_sessionOver (s : State) (x : Port) (d : List Elem) : (s.atPort x d).sessionOver = s.sessionOver := rfl

@[simp] theorem State.consume_cap (s : State) (t : State) : (s.consume t).cap = t.cap := rfl
@[simp] theorem State.consume_elemBytes (s : State) (t : State) : (s.consume t).elemBytes = t.elemBytes := rfl
@[simp] theorem State.consume_slotCount (s : State) (t : State) : (s.consume t).slotCount = t.slotCount := rfl
@[simp] theorem State.consume_segBytes (s : State) (t : State) : (s.consume t).segBytes = t.segBytes := rfl
@[simp] theorem State.consume_params (s : State) (t : State) : (s.consume t).params = t.params := rfl
@[simp] theorem State.consume_availableRead (s : State) (t : State) : (s.consume t).availableRead = t.availableRead := rfl
@[simp] theorem State.consume_availableWrite (s : State) (t : State) : (s.consume t).availableWrite = t.availableWrite := rfl
@[simp] theorem State.consume_slot (s : State) (t : State) (i : Nat) : (s.consume t).slot i = t.slot i := by rfl
@[simp] theorem State.consume_isEmpty (s : State) (t : State) : (s.consume t).isEmpty = t.isEmpty := rfl
@[simp] theorem State.consume_isFull (s : State) (t : State) : (s.consume t).isFull = t.isFull := rfl
@[simp] theorem State.consume_errOf (s : State) (t : State) (x : Port) : (s.consume t).errOf x = t.errOf x := by cases x <;> rfl

@[simp] theorem State.presentNext_cap (s : State) (x : Port) (t : Transaction) : (s.presentNext x t).cap = s.cap := rfl
@[simp] theorem State.presentNext_elemBytes (s : State) (x : Port) (t : Transaction) : (s.presentNext x t).elemBytes = s.elemBytes := rfl
@[simp] theorem State.presentNext_slotCount (s : State) (x : Port) (t : Transaction) : (s.presentNext x t).slotCount = s.slotCount := rfl
@[simp] theorem State.presentNext_segBytes (s : State) (x : Port) (t : Transaction) : (s.presentNext x t).segBytes = s.segBytes := rfl
@[simp] theorem State.presentNext_params (s : State) (x : Port) (t : Transaction) : (s.presentNext x t).params = s.params := rfl
@[simp] theorem State.presentNext_availableRead (s : State) (x : Port) (t : Transaction) : (s.presentNext x t).availableRead = s.availableRead := rfl
@[simp] theorem State.presentNext_availableWrite (s : State) (x : Port) (t : Transaction) : (s.presentNext x t).availableWrite = s.availableWrite := rfl
@[simp] theorem State.presentNext_slot (s : State) (x : Port) (t : Transaction) (i : Nat) : (s.presentNext x t).slot i = s.slot i := by rfl
@[simp] theorem State.presentNext_isEmpty (s : State) (x : Port) (t : Transaction) : (s.presentNext x t).isEmpty = s.isEmpty := rfl
@[simp] theorem State.presentNext_isFull (s : State) (x : Port) (t : Transaction) : (s.presentNext x t).isFull = s.isFull := rfl
@[simp] theorem State.presentNext_errOf (s : State) (x : Port) (t : Transaction) (y : Port) : (s.presentNext x t).errOf y = s.errOf y := by cases y <;> rfl

@[simp] theorem merge_cap (s p c h : State) : (merge s p c h).cap = s.cap := rfl
@[simp] theorem merge_elemBytes (s p c h : State) : (merge s p c h).elemBytes = s.elemBytes := rfl
@[simp] theorem merge_slotCount (s p c h : State) : (merge s p c h).slotCount = s.slotCount := rfl
@[simp] theorem merge_segBytes (s p c h : State) : (merge s p c h).segBytes = s.segBytes := rfl
@[simp] theorem merge_params (s p c h : State) : (merge s p c h).params = s.params := rfl

/-- The response register of a port after it is set. -/
@[simp] theorem State.setRsp_rspOf (s : State) (x y : Port) (r : Option Response) :
    (s.setRsp x r).rspOf y = if x = y then r else s.rspOf y := by
  cases x <;> cases y <;> rfl

/-- The error register of a port after it is set. -/
@[simp] theorem State.setErr_errOf (s : State) (x y : Port) (e : BitVec 5) :
    (s.setErr x e).errOf y = if x = y then e else s.errOf y := by
  cases x <;> cases y <;> rfl

@[simp] theorem State.nextDraws_rspOf (s : State) (y : Port) : s.nextDraws.rspOf y = s.rspOf y := by cases y <;> rfl

/-- An answer is seen at the executing port and nowhere else. -/
@[simp] theorem State.answer_rspOf (s : State) (r : Response) (y : Port) :
    (s.answer r).rspOf y = if s.port = y then some r else s.rspOf y := by
  simp only [State.answer, State.nextDraws_rspOf, State.setRsp_rspOf]

@[simp] theorem State.respond_rspOf (s : State) (c : Word) (d : List Elem) (w : Desc) (y : Port) :
    (s.respond c d w).rspOf y = if s.port = y then some ⟨.ok, c, d, w⟩ else s.rspOf y := by
  simp only [State.respond, State.answer_rspOf]

@[simp] theorem State.raiseErr_rspOf (s : State) (code : Status) (y : Port) :
    (s.raiseErr code).rspOf y = if s.port = y then some (errorResponse code) else s.rspOf y := by
  cases y <;> rfl

/-- `raise Err` records its code at the executing port and nowhere else. -/
@[simp] theorem State.raiseErr_errOf (s : State) (code : Status) (y : Port) :
    (s.raiseErr code).errOf y = if s.port = y then errRecord (s.errOf y) code.code else s.errOf y := by
  simp only [State.raiseErr, State.answer_errOf, State.setErr_errOf]
  split
  · next h => rw [h]
  · rfl

/-- What is presented does not depend on which port is being executed. -/
@[simp] theorem State.atPort_presentedAt (s : State) (x y : Port) (d : List Elem) :
    (s.atPort x d).presentedAt y = s.presentedAt y := by
  simp only [State.presentedAt, State.atPort_inputOf]

end Sys2Proof.Machine
end

