-- ==== Sys2Proof/Laws/Ring.lean ====
section
/-! SUPPORT. Laws of the cursors: what `Idx`, `availableRead` and a cursor's advance are without the remainder, for cursors
below `N`, so that `omega` closes what is left. -/

namespace Sys2Proof.Machine

/-- A remainder of less than two laps. -/
theorem mod_of_lt_two_mul {a n : Nat} (h : a < 2 * n) : a % n = if a < n then a else a - n := by
  split
  · next h1 => exact Nat.mod_eq_of_lt h1
  · next h1 => rw [Nat.mod_eq_sub_mod (by omega), Nat.mod_eq_of_lt (by omega)]

/-- `Idx` below one lap (20_memory.md R45, R46). -/
theorem idx_eq {n base j : Nat} (hb : base < n) (hj : j < n) :
    idx n base j = if base + j < n then base + j else base + j - n :=
  mod_of_lt_two_mul (by omega)

theorem idx_lt {n : Nat} (hn : 0 < n) (base j : Nat) : idx n base j < n := Nat.mod_lt _ hn

/-- `N` is positive and every cursor value below it fits its register (00_scope.md R7). -/
theorem State.slotCount_pos (s : State) : 0 < s.slotCount := Nat.succ_pos _

theorem State.slotCount_le (s : State) : s.slotCount ≤ 2 ^ 32 := by
  have := s.cfgCap.isLt
  unfold State.slotCount State.cap
  omega

theorem State.slotCount_eq (s : State) : s.slotCount = s.cap + 1 := rfl

/-- A cursor's new value as a number (20_memory.md R47). -/
theorem advance_toNat {n : Nat} (h0 : 0 < n) (hn : n ≤ 2 ^ 32) (x : Word) (k : Nat) :
    (advance n x k).toNat = (x.toNat + k) % n := by
  have := Nat.mod_lt (x.toNat + k) h0
  rw [advance, BitVec.toNat_ofNat, Nat.mod_eq_of_lt (by omega)]

/-- Every cursor update leaves the cursor below `N` (20_memory.md R47). -/
theorem advance_lt {n : Nat} (h0 : 0 < n) (hn : n ≤ 2 ^ 32) (x : Word) (k : Nat) : (advance n x k).toNat < n := by
  rw [advance_toNat h0 hn]; exact Nat.mod_lt _ h0

/-- `availableRead` from the cursors (10_state.md R25). -/
theorem State.availableRead_eq {s : State} (hw : s.wr.toNat < s.slotCount) (hr : s.rd.toNat < s.slotCount) :
    s.availableRead =
      if s.rd.toNat ≤ s.wr.toNat then s.wr.toNat - s.rd.toNat else s.wr.toNat + s.slotCount - s.rd.toNat := by
  rw [State.availableRead, mod_of_lt_two_mul (by omega)]
  split <;> split <;> omega

theorem State.availableRead_lt (s : State) : s.availableRead < s.slotCount := Nat.mod_lt _ s.slotCount_pos

/-- `availableRead` never exceeds `CAP` (10_state.md R25). -/
theorem State.availableRead_le (s : State) : s.availableRead ≤ s.cap := Nat.lt_succ_iff.mp s.availableRead_lt

theorem State.availableWrite_le (s : State) : s.availableWrite ≤ s.cap := Nat.sub_le _ _

theorem State.cap_lt (s : State) : s.cap < 2 ^ 32 := s.cfgCap.isLt

/-- A count the block answers fits its field. -/
theorem toNat_ofNat_of_le_cap {s : State} {k : Nat} (h : k ≤ s.cap) : (BitVec.ofNat 32 k).toNat = k := by
  have := s.cap_lt
  rw [BitVec.toNat_ofNat, Nat.mod_eq_of_lt (by omega)]

end Sys2Proof.Machine
end

