-- ==== Sys2Proof/Laws/Exec.lean ====
section
/-! SUPPORT. What `exec` can do, said once: it refuses write data that is not the command's, and otherwise gives the one
next state `afterExec`; then what that state is for each command, port by port. -/

namespace Sys2Proof.Machine

/-- The state a command's own rule gives, once the checks before it have passed. -/
def execBody : Instr → State → State
  | .nop, s => s.respond 0#32 [] zeroDesc
  | .push len, s =>
    if s.spanOpen then s.raiseErr .spanOpen
    else ((s.writeElems 0 (s.wdata.take (min len.toNat s.availableWrite))).advanceWr
      (min len.toNat s.availableWrite)).respond (BitVec.ofNat 32 (min len.toNat s.availableWrite)) [] zeroDesc
  | .wspan amount, s =>
    if s.spanOpen then s.raiseErr .spanOpen
    else (s.setWindow true (BitVec.ofNat 32 (min amount.toNat s.availableWrite))).respond
      (BitVec.ofNat 32 (min amount.toNat s.availableWrite)) []
      (splitDesc s.slotCount s.wr.toNat (min amount.toNat s.availableWrite))
  | .spanWr j, s =>
    if s.spanOpen = false then s.raiseErr .noSpan
    else if s.spanLen.toNat ≤ j.toNat then s.raiseErr .spanRange
    else (s.writeElems j.toNat s.wdata).respond 0#32 [] zeroDesc
  | .spanCommit, s =>
    if s.spanOpen = false then s.raiseErr .noSpan
    else ((s.advanceWr s.spanLen.toNat).setWindow false 0#32).respond s.spanLen [] zeroDesc
  | .pop len, s =>
    (s.advanceRd (min len.toNat s.availableRead)).respond (BitVec.ofNat 32 (min len.toNat s.availableRead))
      (s.readElems (min len.toNat s.availableRead)) zeroDesc
  | .empty, s => s.respond (flagWord s.isEmpty) [] zeroDesc
  | .full, s => s.respond (flagWord s.isFull) [] zeroDesc
  | .capacity, s => s.respond s.cfgCap [] zeroDesc
  | .availRead, s => s.respond (BitVec.ofNat 32 s.availableRead) [] zeroDesc
  | .availWrite, s => s.respond (BitVec.ofNat 32 s.availableWrite) [] zeroDesc
  | .elemInfo, s => s.respond s.elemInfoWord [] zeroDesc
  | .errStatus, s => s.respond s.errStatusWord [] zeroDesc
  | .segRd a, s =>
    if a.toNat % 4 ≠ 0 then s.raiseErr .addrAlign
    else if s.segBytes ≤ a.toNat then s.raiseErr .addrRange
    else s.respond (s.segWord a.toNat) [] zeroDesc
  | .reset, s => s.resetState.respond 0#32 [] zeroDesc

/-- The next state of a command that is not refused: its own rule on a port that may issue it, `WRONG_PORT` elsewhere. -/
def afterExec (i : Instr) (s : State) : State :=
  if legalPort i s.port then execBody i s else s.raiseErr .wrongPort

/-- Every meaning is the shared check and its body. -/
theorem exec_eq_accept (i : Instr) (s : State) : exec i s = accept i s (execBody i s) := by
  cases i <;> rfl

/-- `exec` refuses write data that is not the command's, and otherwise gives `afterExec`. -/
theorem exec_eq (i : Instr) (s : State) :
    exec i s =
      match dataRefusal s.elemBytes i.dataCount s.wdata with
      | some r => .refused r
      | none => .next (afterExec i s) := by
  rw [exec_eq_accept, accept]
  cases dataRefusal s.elemBytes i.dataCount s.wdata with
  | some r => rfl
  | none =>
    simp only [afterExec]
    split <;> rfl

/-- Write data is accepted exactly when the command with it is well-formed. -/
theorem dataRefusal_eq_none (e n : Nat) (data : List Elem) :
    dataRefusal e n data = none ↔ data.length = n ∧ data.all (elemFits e) = true := by
  unfold dataRefusal
  by_cases h : data.length = n
  · cases h2 : data.all (elemFits e) <;> simp [h]
  · simp [h]

theorem wellFormed_iff (e : Nat) (data : List Elem) (i : Instr) :
    i.wellFormed e data = true ↔ data.length = i.dataCount ∧ data.all (elemFits e) = true := by
  simp only [Instr.wellFormed, Bool.and_eq_true, decide_eq_true_eq]

/-- A well-formed command always has a next state. -/
theorem exec_of_wellFormed {i : Instr} {s : State} (h : i.wellFormed s.elemBytes s.wdata = true) :
    exec i s = .next (afterExec i s) := by
  rw [exec_eq, (dataRefusal_eq_none _ _ _).mpr ((wellFormed_iff _ _ _).mp h)]

/-- A next state of `exec` is `afterExec`, and the command was well-formed. -/
theorem exec_next {i : Instr} {s t : State} (h : exec i s = .next t) :
    i.wellFormed s.elemBytes s.wdata = true ∧ t = afterExec i s := by
  rw [exec_eq] at h
  cases hd : dataRefusal s.elemBytes i.dataCount s.wdata with
  | some r => rw [hd] at h; cases h
  | none =>
    rw [hd] at h
    exact ⟨(wellFormed_iff _ _ _).mpr ((dataRefusal_eq_none _ _ _).mp hd), (Host.Outcome.next.inj h).symm⟩

/-- A well-formed command on a port that may issue it gives its own rule's state. -/
theorem exec_legal {i : Instr} {s : State} (h : i.wellFormed s.elemBytes s.wdata = true)
    (hp : legalPort i s.port = true) : exec i s = .next (execBody i s) := by
  rw [exec_of_wellFormed h, afterExec, if_pos hp]

/-- A well-formed command on any other port raises `WRONG_PORT` (60_exceptions.md R123). -/
theorem exec_wrongPort {i : Instr} {s : State} (h : i.wellFormed s.elemBytes s.wdata = true)
    (hp : legalPort i s.port = false) : exec i s = .next (s.raiseErr .wrongPort) := by
  rw [exec_of_wellFormed h, afterExec, if_neg (by simp [hp])]

/-- What a command on port `P` can leave in the producer's part of the state (10_state.md R20): the five ways a producer
command ends. -/
inductive ProducerEffect (s t : State) : Prop where
  /-- Nothing of the producer's moved; its error register may have recorded a code in `1..7`. -/
  | quiet (hw : t.wr = s.wr) (hm : t.mem = s.mem) (ho : t.spanOpen = s.spanOpen) (hl : t.spanLen = s.spanLen)
      (he : t.errP = s.errP ∨ ∃ c : Status, 1 ≤ c.code.toNat ∧ c.code.toNat ≤ 7 ∧ t.errP = errRecord s.errP c.code)
  /-- `PUSH` moved the elements `vs`. -/
  | pushed (vs : List Elem) (hc : s.spanOpen = false) (hk : vs.length ≤ s.availableWrite)
      (hv : vs.all (elemFits s.elemBytes) = true) (hw : t.wr = advance s.slotCount s.wr vs.length)
      (hm : t.mem = Memory.writeElems s.elemBytes s.slotCount s.wr.toNat s.mem 0 vs)
      (ho : t.spanOpen = s.spanOpen) (hl : t.spanLen = s.spanLen) (he : t.errP = s.errP)
  /-- `WSPAN` granted `g` slots. -/
  | granted (g : Nat) (hc : s.spanOpen = false) (hg : g ≤ s.availableWrite) (hw : t.wr = s.wr) (hm : t.mem = s.mem)
      (ho : t.spanOpen = true) (hl : t.spanLen = BitVec.ofNat 32 g) (he : t.errP = s.errP)
  /-- `SPAN_WR` wrote one granted slot. -/
  | wrote (j : Nat) (v : Elem) (hc : s.spanOpen = true) (hj : j < s.spanLen.toNat) (hv : elemFits s.elemBytes v = true)
      (hw : t.wr = s.wr) (hm : t.mem = Memory.writeElems s.elemBytes s.slotCount s.wr.toNat s.mem j [v])
      (ho : t.spanOpen = s.spanOpen) (hl : t.spanLen = s.spanLen) (he : t.errP = s.errP)
  /-- `SPAN_COMMIT` published the grant. -/
  | committed (hc : s.spanOpen = true) (hw : t.wr = advance s.slotCount s.wr s.spanLen.toNat) (hm : t.mem = s.mem)
      (ho : t.spanOpen = false) (hl : t.spanLen = 0#32) (he : t.errP = s.errP)

/-- `raise Err` at a port, seen in its error register. -/
theorem raiseErr_errP_of_port {s : State} (hp : s.port = .P) (c : Status) :
    (s.raiseErr c).errP = errRecord s.errP c.code := by
  rw [State.raiseErr_errP, if_pos hp, hp]; rfl

theorem raiseErr_errC_of_port {s : State} (hp : s.port = .C) (c : Status) :
    (s.raiseErr c).errC = errRecord s.errC c.code := by
  rw [State.raiseErr_errC, if_pos hp, hp]; rfl

theorem raiseErr_errH_of_port {s : State} (hp : s.port = .H) (c : Status) :
    (s.raiseErr c).errH = errRecord s.errH c.code := by
  rw [State.raiseErr_errH, if_pos hp, hp]; rfl

/-- An error on port `P` moves nothing of the producer's. -/
theorem producerEffect_raiseErr {s : State} (hp : s.port = .P) (c : Status) (h1 : 1 ≤ c.code.toNat)
    (h7 : c.code.toNat ≤ 7) : ProducerEffect s (s.raiseErr c) :=
  .quiet rfl rfl rfl rfl (.inr ⟨c, h1, h7, raiseErr_errP_of_port hp c⟩)

/-- An answer alone moves nothing of the producer's. -/
theorem producerEffect_respond (s : State) (c : Word) (d : List Elem) (w : Desc) : ProducerEffect s (s.respond c d w) :=
  .quiet rfl rfl rfl rfl (.inl rfl)

theorem all_take {p : Elem → Bool} {l : List Elem} (h : l.all p = true) (k : Nat) : (l.take k).all p = true := by
  rw [List.all_eq_true] at h ⊢
  exact fun x hx => h x (List.mem_of_mem_take hx)

/-- Every command on port `P` ends in one of the producer's five ways. -/
theorem producerEffect_afterExec {i : Instr} {s : State} (h : i.wellFormed s.elemBytes s.wdata = true)
    (hp : s.port = .P) : ProducerEffect s (afterExec i s) := by
  obtain ⟨hl, hv⟩ := (wellFormed_iff _ _ _).mp h
  cases i <;> simp only [afterExec, hp, legalPort, if_true, beq_self_eq_true, execBody]
  case push len =>
    split
    · exact producerEffect_raiseErr hp _ (by decide) (by decide)
    · next hc =>
      have hlen : (s.wdata.take (min len.toNat s.availableWrite)).length = min len.toNat s.availableWrite := by
        simp only [Instr.dataCount] at hl
        rw [List.length_take]; omega
      refine .pushed (s.wdata.take (min len.toNat s.availableWrite)) (by simpa using hc) ?_ (all_take hv _) ?_ rfl rfl rfl rfl
      · rw [hlen]; exact Nat.min_le_right _ _
      · rw [hlen]; rfl
  case wspan amount =>
    split
    · exact producerEffect_raiseErr hp _ (by decide) (by decide)
    · next hc => exact .granted _ (by simpa using hc) (Nat.min_le_right _ _) rfl rfl rfl rfl rfl
  case spanWr j =>
    split
    · exact producerEffect_raiseErr hp _ (by decide) (by decide)
    · next hc =>
      split
      · exact producerEffect_raiseErr hp _ (by decide) (by decide)
      · next hj =>
        obtain ⟨v, hd⟩ := List.length_eq_one_iff.mp hl
        rw [hd] at hv ⊢
        exact .wrote j.toNat v (by simpa using hc) (by omega) (by simpa using hv) rfl rfl rfl rfl rfl
  case spanCommit =>
    split
    · exact producerEffect_raiseErr hp _ (by decide) (by decide)
    · next hc => exact .committed (by simpa using hc) rfl rfl rfl rfl rfl
  case pop => exact producerEffect_raiseErr hp _ (by decide) (by decide)
  case segRd => exact producerEffect_raiseErr hp _ (by decide) (by decide)
  case reset => exact producerEffect_raiseErr hp _ (by decide) (by decide)
  all_goals exact producerEffect_respond _ _ _ _

/-- What a command on port `C` can leave in the consumer's part of the state: the read cursor past what was delivered, or an
error. -/
inductive ConsumerEffect (s t : State) : Prop where
  /-- Nothing of the consumer's moved; its error register may have recorded a code in `1..7`. -/
  | quiet (hr : t.rd = s.rd)
      (he : t.errC = s.errC ∨ ∃ c : Status, 1 ≤ c.code.toNat ∧ c.code.toNat ≤ 7 ∧ t.errC = errRecord s.errC c.code)
  /-- `POP` delivered `k` elements. -/
  | popped (k : Nat) (hk : k ≤ s.availableRead) (hr : t.rd = advance s.slotCount s.rd k) (he : t.errC = s.errC)

theorem consumerEffect_raiseErr {s : State} (hp : s.port = .C) (c : Status) (h1 : 1 ≤ c.code.toNat)
    (h7 : c.code.toNat ≤ 7) : ConsumerEffect s (s.raiseErr c) :=
  .quiet rfl (.inr ⟨c, h1, h7, raiseErr_errC_of_port hp c⟩)

/-- Every command on port `C` delivers elements or moves nothing of the consumer's. -/
theorem consumerEffect_afterExec {s : State} (i : Instr) (hp : s.port = .C) : ConsumerEffect s (afterExec i s) := by
  cases i <;> simp only [afterExec, hp, legalPort, if_true, beq_self_eq_true, execBody]
  case pop len => exact .popped _ (Nat.min_le_right _ _) rfl rfl
  case push => exact consumerEffect_raiseErr hp _ (by decide) (by decide)
  case wspan => exact consumerEffect_raiseErr hp _ (by decide) (by decide)
  case spanWr => exact consumerEffect_raiseErr hp _ (by decide) (by decide)
  case spanCommit => exact consumerEffect_raiseErr hp _ (by decide) (by decide)
  case segRd => exact consumerEffect_raiseErr hp _ (by decide) (by decide)
  case reset => exact consumerEffect_raiseErr hp _ (by decide) (by decide)
  all_goals exact .quiet rfl (.inl rfl)

/-- A command on port `H` that is no `RESET` leaves its error register or records a code in `1..7` there. -/
theorem hostEffect_afterExec {i : Instr} {s : State} (hp : s.port = .H) (hi : i ≠ .reset) :
    (afterExec i s).errH = s.errH ∨
      ∃ c : Status, 1 ≤ c.code.toNat ∧ c.code.toNat ≤ 7 ∧ (afterExec i s).errH = errRecord s.errH c.code := by
  have raise : ∀ c : Status, 1 ≤ c.code.toNat → c.code.toNat ≤ 7 →
      (s.raiseErr c).errH = s.errH ∨ ∃ c' : Status, 1 ≤ c'.code.toNat ∧ c'.code.toNat ≤ 7 ∧
        (s.raiseErr c).errH = errRecord s.errH c'.code :=
    fun c h1 h7 => .inr ⟨c, h1, h7, raiseErr_errH_of_port hp c⟩
  cases i <;> simp only [afterExec, hp, legalPort, if_true, beq_self_eq_true, execBody]
  case reset => exact absurd rfl hi
  case segRd a =>
    split
    · exact raise _ (by decide) (by decide)
    · split
      · exact raise _ (by decide) (by decide)
      · exact .inl rfl
  case push => exact raise _ (by decide) (by decide)
  case wspan => exact raise _ (by decide) (by decide)
  case spanWr => exact raise _ (by decide) (by decide)
  case spanCommit => exact raise _ (by decide) (by decide)
  case pop => exact raise _ (by decide) (by decide)
  all_goals exact .inl rfl

/-- Every executed command answers at its port. -/
theorem afterExec_rspOf (i : Instr) (s : State) : ((afterExec i s).rspOf s.port).isSome = true := by
  cases i <;> simp only [afterExec, execBody] <;> repeat' split
  all_goals simp

end Sys2Proof.Machine
end

