-- ==== Sys2Proof/Laws/Cycle.lean ====
section
/-! SUPPORT. What a step can do, said once: a refusal of the boundary, or the one next state `cycleResult`, the merge of what
the three ports' commands leave. -/

namespace Sys2Proof.Machine

/-- The fields a decoded word has. -/
theorem decode_fields {cmd : Command} {i : Instr} (h : decode cmd = .ok i) :
    fieldOp cmd = i.opcode ∧ fieldArg cmd = i.operand := by
  have op : ∀ n : Nat, n < 256 → (fieldOp cmd).toNat = n → fieldOp cmd = BitVec.ofNat 8 n := fun n hn hc => by
    apply BitVec.eq_of_toNat_eq
    rw [hc, BitVec.toNat_ofNat, Nat.mod_eq_of_lt (by omega)]
  unfold decode at h
  split at h
  · next j hj =>
    split at h
    · obtain rfl := Except.ok.inj h
      unfold operandCommand at hj
      split at hj
      all_goals first
        | (next hn => obtain rfl := Option.some.inj hj; exact ⟨op _ (by decide) hn, rfl⟩)
        | cases hj
    · cases h
  · split at h
    · cases h
    · next j hj =>
      split at h
      · split at h
        · next ha =>
          obtain rfl := Except.ok.inj h
          unfold zeroOperandCommand at hj
          split at hj
          all_goals first
            | (next hn => obtain rfl := Option.some.inj hj; exact ⟨op _ (by decide) hn, ha⟩)
            | cases hj
        · cases h
      · cases h

/-- The write-data length a legal word fixes is its command's (30_encoding.md R63). -/
theorem writeLength_of_decode {cmd : Command} {i : Instr} (h : decode cmd = .ok i) : writeLength cmd = i.dataCount := by
  obtain ⟨ho, ha⟩ := decode_fields h
  rw [writeLength, ho, ha]
  cases i <;> rfl

/-- The state port `x`'s command leaves (20_memory.md R52, `Exec`). -/
def portResult (x : Port) (s : State) : State :=
  match s.presentedAt x with
  | none => s.setRsp x none
  | some t =>
    match decode t.cmd with
    | .error _ => (s.atPort x t.data).raiseErr .illegal
    | .ok i => afterExec i (s.atPort x t.data)

theorem portResult_idle {s : State} {x : Port} (hx : s.presentedAt x = none) : portResult x s = s.setRsp x none := by
  rw [portResult, hx]

theorem portResult_illegal {s : State} {x : Port} {t : Transaction} {e : DecodeError} (hx : s.presentedAt x = some t)
    (hd : decode t.cmd = .error e) : portResult x s = (s.atPort x t.data).raiseErr .illegal := by
  simp only [portResult, hx, hd]

theorem portResult_legal {s : State} {x : Port} {t : Transaction} {i : Instr} (hx : s.presentedAt x = some t)
    (hd : decode t.cmd = .ok i) : portResult x s = afterExec i (s.atPort x t.data) := by
  simp only [portResult, hx, hd]

/-- The state a cycle leaves (20_memory.md R52, `Cycle`). -/
def cycleResult (s : State) : State :=
  s.consume
    (if s.resets then
      ((portResult .H s).setRsp .P (abortedResponse (s.presentedAt .P))).setRsp .C (abortedResponse (s.presentedAt .C))
     else merge s (portResult .P s) (portResult .C s) (portResult .H s))

/-- A transaction the boundary lets through is well-formed write data for its command. -/
theorem wellFormed_of_boundary {s : State} {x : Port} {t : Transaction} {i : Instr}
    (hb : s.boundaryRefusal x = none) (hx : s.presentedAt x = some t) (hd : decode t.cmd = .ok i) :
    i.wellFormed s.elemBytes t.data = true := by
  rw [State.boundaryRefusal, hx] at hb
  simp only [writeLength_of_decode hd] at hb
  exact (wellFormed_iff _ _ _).mpr ((dataRefusal_eq_none _ _ _).mp hb)

/-- A port whose transaction is not refused always has its next state. -/
theorem runPort_eq {s : State} {x : Port} (hb : s.boundaryRefusal x = none) : runPort x s = .next (portResult x s) := by
  unfold runPort portResult
  cases hx : s.presentedAt x with
  | none => rfl
  | some t =>
    cases hd : decode t.cmd with
    | error e => simp only [hd]
    | ok i =>
      simp only [hd]
      exact exec_of_wellFormed (by
        simpa using wellFormed_of_boundary hb hx hd)

/-- What lets a cycle take place. -/
theorem cycleRefusal_eq_none {s : State} :
    s.cycleRefusal = none ↔
      s.params.legal = true ∧ s.sessionOver = false ∧ ∀ x, s.boundaryRefusal x = none := by
  have ports : (∀ x, s.boundaryRefusal x = none) ↔
      s.boundaryRefusal .P = none ∧ s.boundaryRefusal .C = none ∧ s.boundaryRefusal .H = none :=
    ⟨fun h => ⟨h _, h _, h _⟩, fun h x => by cases x <;> simp [h]⟩
  rw [ports, State.cycleRefusal]
  cases s.params.legal <;> cases s.sessionOver <;> cases s.boundaryRefusal .P <;> cases s.boundaryRefusal .C <;> simp

/-- A step is a refusal or the cycle's one next state. -/
theorem step_eq (s : State) :
    step s = match s.cycleRefusal with
      | some r => .refused r
      | none => .next (cycleResult s) := by
  unfold step clockStep
  cases hc : s.cycleRefusal with
  | some r => rfl
  | none =>
    obtain ⟨-, -, hb⟩ := cycleRefusal_eq_none.mp hc
    simp only [cycle, cycleResult, resetCycle, plainCycle, runPort_eq (hb .P), runPort_eq (hb .C), runPort_eq (hb .H)]
    split <;> rfl

/-- A next state of a step: the cycle took place, and it is `cycleResult`. -/
theorem step_next {s t : State} (h : step s = .next t) :
    (s.params.legal = true ∧ s.sessionOver = false ∧ ∀ x, s.boundaryRefusal x = none) ∧ t = cycleResult s := by
  rw [step_eq] at h
  cases hc : s.cycleRefusal with
  | some r => rw [hc] at h; cases h
  | none =>
    rw [hc] at h
    exact ⟨cycleRefusal_eq_none.mp hc, (Host.Outcome.next.inj h).symm⟩

/-- A cycle that nothing refuses has its next state. -/
theorem step_of_boundary {s : State} (hl : s.params.legal = true) (ho : s.sessionOver = false)
    (hb : ∀ x, s.boundaryRefusal x = none) : step s = .next (cycleResult s) := by
  rw [step_eq, cycleRefusal_eq_none.mpr ⟨hl, ho, hb⟩]

/-- A cycle never faults. -/
theorem step_ne_fault (s : State) (f : Fault) : step s ≠ .fault f := nomatch f

/-- A state met at a port keeps everything else. -/
theorem producerEffect_of_atPort {s t : State} {x : Port} {d : List Elem} (h : ProducerEffect (s.atPort x d) t) :
    ProducerEffect s t := by
  cases h with
  | quiet hw hm ho hl he => exact .quiet hw hm ho hl he
  | pushed vs hc hk hv hw hm ho hl he => exact .pushed vs hc hk hv hw hm ho hl he
  | granted g hc hg hw hm ho hl he => exact .granted g hc hg hw hm ho hl he
  | wrote j v hc hj hv hw hm ho hl he => exact .wrote j v hc hj hv hw hm ho hl he
  | committed hc hw hm ho hl he => exact .committed hc hw hm ho hl he

/-- What port `P` leaves in a cycle. -/
theorem producerEffect_portResult {s : State} (hb : s.boundaryRefusal .P = none) :
    ProducerEffect s (portResult .P s) := by
  cases hx : s.presentedAt .P with
  | none => rw [portResult_idle hx]; exact .quiet rfl rfl rfl rfl (.inl rfl)
  | some t =>
    apply producerEffect_of_atPort (x := .P) (d := t.data)
    cases hd : decode t.cmd with
    | error e =>
      rw [portResult_illegal hx hd]
      exact producerEffect_raiseErr rfl .illegal (by decide) (by decide)
    | ok i =>
      rw [portResult_legal hx hd]
      exact producerEffect_afterExec (s := s.atPort .P t.data) (wellFormed_of_boundary (s := s) hb hx hd) rfl

/-- What port `C` leaves in a cycle. -/
theorem consumerEffect_portResult (s : State) : ConsumerEffect s (portResult .C s) := by
  cases hx : s.presentedAt .C with
  | none => rw [portResult_idle hx]; exact .quiet rfl (.inl rfl)
  | some t =>
    have lift : ∀ {t'}, ConsumerEffect (s.atPort .C t.data) t' → ConsumerEffect s t' := by
      intro t' h
      cases h with
      | quiet hr he => exact .quiet hr he
      | popped k hk hr he => exact .popped k hk hr he
    apply lift
    cases hd : decode t.cmd with
    | error e =>
      rw [portResult_illegal hx hd]
      exact consumerEffect_raiseErr rfl .illegal (by decide) (by decide)
    | ok i =>
      rw [portResult_legal hx hd]
      exact consumerEffect_afterExec i rfl

/-- What port `H` leaves in a cycle without a legal `RESET`. -/
theorem hostEffect_portResult {s : State} (hr : s.resets = false) :
    (portResult .H s).errH = s.errH ∨
      ∃ c : Status, 1 ≤ c.code.toNat ∧ c.code.toNat ≤ 7 ∧ (portResult .H s).errH = errRecord s.errH c.code := by
  cases hx : s.presentedAt .H with
  | none => rw [portResult_idle hx]; exact .inl rfl
  | some t =>
    cases hd : decode t.cmd with
    | error e =>
      rw [portResult_illegal hx hd]
      exact .inr ⟨.illegal, by decide, by decide, raiseErr_errH_of_port rfl _⟩
    | ok i =>
      rw [portResult_legal hx hd]
      have hi : i ≠ .reset := by
        rintro rfl
        simp [State.resets, hx, hd] at hr
      exact hostEffect_afterExec (s := s.atPort .H t.data) rfl hi

/-- A port that presents something is answered, an idle port is not (30_encoding.md R64). -/
theorem portResult_rspOf (x : Port) (s : State) :
    ((portResult x s).rspOf x).isSome = (s.presentedAt x).isSome := by
  cases hx : s.presentedAt x with
  | none => simp [portResult_idle hx]
  | some t =>
    cases hd : decode t.cmd with
    | error e => simp [portResult_illegal hx hd]
    | ok i =>
      rw [portResult_legal hx hd]
      exact afterExec_rspOf i (s.atPort x t.data)

/-- What a legal `RESET` on port `H` leaves there. -/
theorem portResult_reset {s : State} (hr : s.resets = true) :
    ∃ d, portResult .H s = ((s.atPort .H d).resetState).respond 0#32 [] zeroDesc := by
  unfold State.resets at hr
  split at hr
  · cases hr
  · next t ht =>
    split at hr
    · next hd => exact ⟨t.data, by rw [portResult_legal ht hd]; rfl⟩
    · cases hr

end Sys2Proof.Machine
end

