-- ==== Sys2Proof/Laws/Invariant.lean ====
section
/-! SUPPORT. What a cycle without a legal `RESET` does to the block, said once for the statements about every step: the
producer's effect, the consumer's and the host's together, and what follows for the cursors of a state that meets the
invariant. Beside it, what legal parameters are as a proposition, and what an error register can hold. -/

namespace Sys2Proof.Machine

/-- The legal parameter values as a proposition (00_scope.md R7). -/
theorem Params.legal_iff (p : Params) :
    p.legal = true ↔
      1 ≤ p.cap ∧ (p.elemBytes = 1 ∨ p.elemBytes = 2 ∨ p.elemBytes = 4 ∨ p.elemBytes = 8) ∧
      (p.elemKind = 0 ∨ p.elemKind = 1) ∧ (p.elemKind = 1 → p.elemBytes = 4 ∨ p.elemBytes = 8) ∧
      8 + (p.cap + 1) * p.elemBytes ≤ 2 ^ 32 := by
  simp only [Params.legal, Bool.and_eq_true, Bool.or_eq_true, decide_eq_true_eq, beq_iff_eq]
  constructor
  · rintro ⟨⟨⟨h1, h2⟩, h3⟩, h4⟩
    refine ⟨h1, by tauto, by tauto, fun h => ?_, h4⟩
    rcases h3 with h3 | h3
    · omega
    · exact h3.2
  · rintro ⟨h1, h2, h3, h4, h5⟩
    exact ⟨⟨⟨h1, by tauto⟩, by tauto⟩, h5⟩

/-- When construction names no error (70_reset_and_hazards.md R140). -/
theorem constructionError_eq_none (p : Params) (seg : Option Nat) :
    constructionError p seg = none ↔ p.legal = true ∧ ∀ l, seg = some l → l = 8 + (p.cap + 1) * p.elemBytes := by
  rw [Params.legal_iff]
  unfold constructionError segmentSize
  split
  · simp; omega
  · split
    · simp; omega
    · split
      · simp; omega
      · split
        · simp; intros; omega
        · cases seg with
          | none => simp; omega
          | some l =>
            simp
            intro
            exact ⟨by omega, by omega, by omega, by omega, by omega⟩

/-- Legal parameters fit the configuration registers, so the block keeps them (10_state.md R31). -/
theorem State.params_resetWith {p : Params} (h : p.legal = true) : (State.resetWith p).params = p := by
  obtain ⟨h1, h2, h3, h4, h5⟩ := (Params.legal_iff p).mp h
  have hcap : p.cap < 2 ^ 32 - 1 := by
    rcases h2 with h | h | h | h <;> rw [h] at h5 <;> omega
  obtain ⟨c, e, k⟩ := p
  simp only [State.params, State.resetWith_cfgCap, State.resetWith_cfgElemBytes, State.resetWith_cfgElemKind,
    BitVec.toNat_ofNat, Params.mk.injEq] at *
  exact ⟨by omega, by omega, by omega⟩

/-- A legal block's elements have at least one byte. -/
theorem State.elemBytes_pos {s : State} (h : s.params.legal = true) : 0 < s.elemBytes := by
  have := (Params.legal_iff _).mp h
  simp only [State.params] at this
  unfold State.elemBytes
  omega

/-- With nothing listed every slot is unset (20_memory.md R43). -/
theorem State.slot_of_mem_nil {s : State} (hE : 0 < s.elemBytes) (hm : s.mem = []) (i : Nat) : s.slot i = none := by
  obtain ⟨e, he⟩ := Nat.exists_eq_succ_of_ne_zero hE.ne'
  simp [State.slot, Memory.slot, hm, he, Memory.readBytes, Memory.read]

/-- A recorded code in `1..7` leaves the register as 60_exceptions.md R125 says. -/
theorem errInv_errRecord {e : BitVec 5} {c : BitVec 4} (h : errInv e) (h1 : 1 ≤ c.toNat) (h7 : c.toNat ≤ 7) :
    errInv (errRecord e c) := by
  unfold errRecord
  split
  · exact h
  · have : c = 1#4 ∨ c = 2#4 ∨ c = 3#4 ∨ c = 4#4 ∨ c = 5#4 ∨ c = 6#4 ∨ c = 7#4 := by
      have : c.toNat = 1 ∨ c.toNat = 2 ∨ c.toNat = 3 ∨ c.toNat = 4 ∨ c.toNat = 5 ∨ c.toNat = 6 ∨ c.toNat = 7 := by
        omega
      simpa [BitVec.toNat_eq] using this
    rcases this with rfl | rfl | rfl | rfl | rfl | rfl | rfl <;> decide +revert

theorem errInv_of_effect {e e' : BitVec 5} (h : errInv e)
    (he : e' = e ∨ ∃ c : Status, 1 ≤ c.code.toNat ∧ c.code.toNat ≤ 7 ∧ e' = errRecord e c.code) : errInv e' := by
  obtain rfl | ⟨c, h1, h7, rfl⟩ := he
  · exact h
  · exact errInv_errRecord h h1 h7

/-- What a cycle without a legal `RESET` does to the block, port by port (20_memory.md R52, R55). -/
structure CycleEffect (s t : State) : Prop where
  cfgCap : t.cfgCap = s.cfgCap
  cfgElemBytes : t.cfgElemBytes = s.cfgElemBytes
  cfgElemKind : t.cfgElemKind = s.cfgElemKind
  producer : ProducerEffect s t
  consumer : ConsumerEffect s t
  host : t.errH = s.errH ∨ ∃ c : Status, 1 ≤ c.code.toNat ∧ c.code.toNat ≤ 7 ∧ t.errH = errRecord s.errH c.code

/-- The producer's effect is about the producer's part of the state only. -/
theorem ProducerEffect.congr {s t t' : State} (h : ProducerEffect s t) (h1 : t'.wr = t.wr) (h2 : t'.mem = t.mem)
    (h3 : t'.spanOpen = t.spanOpen) (h4 : t'.spanLen = t.spanLen) (h5 : t'.errP = t.errP) : ProducerEffect s t' := by
  cases h with
  | quiet hw hm ho hl he => exact .quiet (h1.trans hw) (h2.trans hm) (h3.trans ho) (h4.trans hl) (by rw [h5]; exact he)
  | pushed vs hc hk hv hw hm ho hl he =>
    exact .pushed vs hc hk hv (h1.trans hw) (h2.trans hm) (h3.trans ho) (h4.trans hl) (h5.trans he)
  | granted g hc hg hw hm ho hl he =>
    exact .granted g hc hg (h1.trans hw) (h2.trans hm) (h3.trans ho) (h4.trans hl) (h5.trans he)
  | wrote j v hc hj hv hw hm ho hl he =>
    exact .wrote j v hc hj hv (h1.trans hw) (h2.trans hm) (h3.trans ho) (h4.trans hl) (h5.trans he)
  | committed hc hw hm ho hl he => exact .committed hc (h1.trans hw) (h2.trans hm) (h3.trans ho) (h4.trans hl) (h5.trans he)

/-- The consumer's effect is about the consumer's part of the state only. -/
theorem ConsumerEffect.congr {s t t' : State} (h : ConsumerEffect s t) (h1 : t'.rd = t.rd) (h2 : t'.errC = t.errC) :
    ConsumerEffect s t' := by
  cases h with
  | quiet hr he => exact .quiet (h1.trans hr) (by rw [h2]; exact he)
  | popped k hk hr he => exact .popped k hk (h1.trans hr) (h2.trans he)

/-- Every step without a legal `RESET` has a cycle's effect. -/
theorem cycleEffect_of_step {s t : State} (h : step s = .next t) (hr : s.resets = false) : CycleEffect s t := by
  obtain ⟨⟨-, -, hb⟩, rfl⟩ := step_next h
  rw [cycleResult, hr]
  exact ⟨rfl, rfl, rfl, (producerEffect_portResult (hb .P)).congr rfl rfl rfl rfl rfl,
    (consumerEffect_portResult s).congr rfl rfl, hostEffect_portResult hr⟩

theorem CycleEffect.slotCount_eq {s t : State} (h : CycleEffect s t) : t.slotCount = s.slotCount := by
  unfold State.slotCount State.cap; rw [h.cfgCap]

theorem CycleEffect.cap_eq {s t : State} (h : CycleEffect s t) : t.cap = s.cap := by
  unfold State.cap; rw [h.cfgCap]

theorem CycleEffect.elemBytes_eq {s t : State} (h : CycleEffect s t) : t.elemBytes = s.elemBytes := by
  unfold State.elemBytes; rw [h.cfgElemBytes]

/-- A cursor's new value without the remainder. -/
theorem advance_eq {s : State} {x : Word} {k : Nat} (hx : x.toNat < s.slotCount) (hk : k ≤ s.cap) :
    (advance s.slotCount x k).toNat =
      if x.toNat + k < s.slotCount then x.toNat + k else x.toNat + k - s.slotCount := by
  rw [advance_toNat s.slotCount_pos s.slotCount_le, mod_of_lt_two_mul]
  have := s.slotCount_eq
  omega

theorem advance_zero {s : State} {x : Word} (hx : x.toNat < s.slotCount) : advance s.slotCount x 0 = x := by
  apply BitVec.eq_of_toNat_eq
  rw [advance_toNat s.slotCount_pos s.slotCount_le, Nat.add_zero, Nat.mod_eq_of_lt hx]

/-- A cursor that advances by at most `CAP` and stays where it was did not advance (10_state.md R24). -/
theorem eq_zero_of_advance_eq {s : State} {x : Word} {k : Nat} (hx : x.toNat < s.slotCount) (hk : k ≤ s.cap)
    (h : advance s.slotCount x k = x) : k = 0 := by
  have e := advance_eq hx hk
  rw [h] at e
  have := s.slotCount_eq
  split at e <;> omega

/-- The distance of two cursors without the remainder (10_state.md R25). -/
theorem distance_eq {n w r : Nat} (hw : w < n) (hr : r < n) :
    (w + n - r) % n = if r ≤ w then w - r else w + n - r := by
  rw [mod_of_lt_two_mul (by omega)]
  split <;> split <;> omega

/-- The cursors after a cycle: each advanced by what its own side moved, and the data is what was there, less what was
delivered, plus what was published (20_memory.md R47, R54). -/
theorem CycleEffect.cursors {s t : State} (hi : s.Inv) (e : CycleEffect s t) :
    t.wr.toNat < s.slotCount ∧ t.rd.toNat < s.slotCount ∧
    ∃ p k, p ≤ s.availableWrite ∧ k ≤ s.availableRead ∧ t.wr = advance s.slotCount s.wr p ∧
      t.rd = advance s.slotCount s.rd k ∧ t.availableRead = s.availableRead - k + p := by
  have hP : ∃ p, p ≤ s.availableWrite ∧ t.wr = advance s.slotCount s.wr p := by
    cases e.producer with
    | quiet hw => exact ⟨0, by omega, by rw [hw, advance_zero hi.wr_lt]⟩
    | pushed vs hc hk hv hw => exact ⟨_, hk, hw⟩
    | granted g hc hg hw => exact ⟨0, by omega, by rw [hw, advance_zero hi.wr_lt]⟩
    | wrote j v hc hj hv hw => exact ⟨0, by omega, by rw [hw, advance_zero hi.wr_lt]⟩
    | committed hc hw => exact ⟨_, hi.grant_free, hw⟩
  have hC : ∃ k, k ≤ s.availableRead ∧ t.rd = advance s.slotCount s.rd k := by
    cases e.consumer with
    | quiet hr => exact ⟨0, by omega, by rw [hr, advance_zero hi.rd_lt]⟩
    | popped k hk hr => exact ⟨k, hk, hr⟩
  obtain ⟨p, hp, hw⟩ := hP
  obtain ⟨k, hk, hr⟩ := hC
  have h1 := s.availableRead_eq hi.wr_lt hi.rd_lt
  have h2 := s.availableRead_le
  have h3 : s.availableWrite = s.cap - s.availableRead := rfl
  have h4 := s.slotCount_eq
  have h5 := hi.wr_lt
  have h6 := hi.rd_lt
  have e1 := advance_eq (k := p) h5 (by omega)
  have e2 := advance_eq (k := k) h6 (by omega)
  rw [← hw] at e1
  rw [← hr] at e2
  have l1 : t.wr.toNat < s.slotCount := by split at e1 <;> omega
  have l2 : t.rd.toNat < s.slotCount := by split at e2 <;> omega
  refine ⟨l1, l2, p, k, hp, hk, hw, hr, ?_⟩
  have sc := e.slotCount_eq
  have h7 := t.availableRead_eq (by omega) (by omega)
  rw [sc] at h7
  by_cases c1 : s.rd.toNat ≤ s.wr.toNat <;> by_cases c2 : t.rd.toNat ≤ t.wr.toNat <;>
    by_cases c3 : s.wr.toNat + p < s.slotCount <;> by_cases c4 : s.rd.toNat + k < s.slotCount <;>
    simp only [c1, c2, c3, c4, if_true, if_false] at h1 h7 e1 e2 <;> omega

/-- What a cycle writes stays inside the slots. -/
theorem CycleEffect.mem_range {s t : State} (hi : s.Inv) (e : CycleEffect s t) :
    ∀ c ∈ t.mem, 8 ≤ c.1 ∧ c.1 < s.segBytes := by
  have key : ∀ j vs, ∀ c ∈ Memory.writeElems s.elemBytes s.slotCount s.wr.toNat s.mem j vs,
      8 ≤ c.1 ∧ c.1 < s.segBytes := by
    intro j vs c hc
    rcases Memory.mem_writeElems s.slotCount_pos hc with hc | hc
    · exact hc
    · exact hi.mem_range c hc
  cases e.producer with
  | quiet hw hm ho hl he => rw [hm]; exact hi.mem_range
  | pushed vs hc hk hv hw hm ho hl he => rw [hm]; exact key _ _
  | granted g hc hg hw hm ho hl he => rw [hm]; exact hi.mem_range
  | wrote j v hc hj hv hw hm ho hl he => rw [hm]; exact key _ _
  | committed hc hw hm ho hl he => rw [hm]; exact hi.mem_range

/-- What the agents still present is nothing a command reads: replacing it commutes with executing one. -/
def State.withInputs (s : State) (a b c : List (Option Transaction)) : State := { s with inP := a, inC := b, inH := c }

theorem State.withInputs_ite (p : Prop) [Decidable p] (s t : State) (a b c : List (Option Transaction)) :
    (if p then s else t).withInputs a b c = if p then s.withInputs a b c else t.withInputs a b c := by
  split <;> rfl

theorem execBody_withInputs (i : Instr) (s : State) (a b c : List (Option Transaction)) :
    execBody i (s.withInputs a b c) = (execBody i s).withInputs a b c := by
  cases i <;> simp only [execBody, State.withInputs_ite] <;> rfl

theorem afterExec_withInputs (i : Instr) (s : State) (a b c : List (Option Transaction)) :
    afterExec i (s.withInputs a b c) = (afterExec i s).withInputs a b c := by
  rw [afterExec, afterExec, State.withInputs_ite, execBody_withInputs]; rfl

/-- What port `x` leaves depends on nothing another port presents: its own entry is all it reads of the agents' sequences
(60_exceptions.md R130 (c)). -/
theorem portResult_withInputs {s : State} {x : Port} {a b c : List (Option Transaction)}
    (h : (s.withInputs a b c).presentedAt x = s.presentedAt x) :
    portResult x (s.withInputs a b c) = (portResult x s).withInputs a b c := by
  cases hx : s.presentedAt x with
  | none => rw [portResult_idle hx, portResult_idle (h.trans hx)]; rfl
  | some t =>
    cases hd : decode t.cmd with
    | error e => rw [portResult_illegal hx hd, portResult_illegal (h.trans hx) hd]; cases x <;> rfl
    | ok i =>
      rw [portResult_legal hx hd, portResult_legal (h.trans hx) hd]
      exact afterExec_withInputs i (s.atPort x t.data) a b c

theorem consume_rspOf (s v : State) (x : Port) : (s.consume v).rspOf x = v.rspOf x := by cases x <;> rfl

theorem consume_errOf (s v : State) (x : Port) : (s.consume v).errOf x = v.errOf x := by cases x <;> rfl

theorem merge_rspOf (s : State) (x : Port) :
    (merge s (portResult .P s) (portResult .C s) (portResult .H s)).rspOf x = (portResult x s).rspOf x := by
  cases x <;> rfl

theorem merge_errOf (s : State) (x : Port) :
    (merge s (portResult .P s) (portResult .C s) (portResult .H s)).errOf x = (portResult x s).errOf x := by
  cases x <;> rfl

/-- The read cursor port `C` leaves. -/
theorem portResult_rd {s : State} (hi : s.Inv) : (portResult .C s).rd = advance s.slotCount s.rd s.popCount := by
  have hid := advance_zero hi.rd_lt
  unfold State.popCount State.commandAt
  cases hx : s.presentedAt .C with
  | none => rw [portResult_idle hx]; exact hid.symm
  | some t =>
    cases hd : decode t.cmd with
    | error e => rw [portResult_illegal hx hd]; simp [hd, hid, Except.toOption]
    | ok i =>
      rw [portResult_legal hx hd]
      simp only [hd, Except.toOption]
      cases i <;> simp [afterExec, legalPort, execBody, hid]

/-- What port `P` leaves, against what the cycle publishes: the write cursor past it, the published slots holding it, and
every slot outside the free ones as before. -/
structure PublishEffect (s t : State) : Prop where
  wr : t.wr = advance s.slotCount s.wr s.published.length
  length_le : s.published.length ≤ s.availableWrite
  new : ∀ j, j < s.published.length →
    some (Memory.slot s.elemBytes t.mem (idx s.slotCount s.wr.toNat j)) = s.published[j]?
  old : ∀ i, (∀ j < s.availableWrite, idx s.slotCount s.wr.toNat j ≠ i) → Memory.slot s.elemBytes t.mem i = s.slot i

/-- Port `P` leaves what the cycle publishes. -/
theorem publishEffect_portResult {s : State} (hi : s.Inv) (hb : s.boundaryRefusal .P = none) :
    PublishEffect s (portResult .P s) := by
  have hid := advance_zero hi.wr_lt
  have quiet : ∀ {t : State}, s.published = [] → t.wr = s.wr → t.mem = s.mem → PublishEffect s t := by
    intro t h1 h2 h3
    exact ⟨by rw [h1, h2]; exact hid.symm, by rw [h1]; simp, by rw [h1]; simp, by rw [h3]; exact fun i _ => rfl⟩
  have hcap : s.availableWrite ≤ s.cap := s.availableWrite_le
  have hsc := s.slotCount_eq
  cases hx : s.presentedAt .P with
  | none => rw [portResult_idle hx]; exact quiet (by simp [State.published, State.commandAt, hx]) rfl rfl
  | some t =>
    cases hd : decode t.cmd with
    | error e => rw [portResult_illegal hx hd]; exact quiet (by simp [State.published, State.commandAt, hx, hd, Except.toOption]) rfl rfl
    | ok i =>
      have hw := (wellFormed_iff _ _ _).mp (wellFormed_of_boundary hb hx hd)
      have hcom : s.commandAt .P = some i := by simp [State.commandAt, hx, hd, Except.toOption]
      have hda : s.dataAt .P = t.data := by simp [State.dataAt, hx]
      rw [portResult_legal hx hd]
      cases i
      case push len =>
        simp only [afterExec, legalPort, State.atPort_port, beq_self_eq_true, if_true, execBody]
        by_cases ho : s.spanOpen = true
        · rw [if_pos (show (s.atPort .P t.data).spanOpen = true from ho)]
          exact quiet (by simp [State.published, hcom, ho]) rfl rfl
        · rw [if_neg (show ¬ (s.atPort .P t.data).spanOpen = true from ho)]
          have hp : s.published = (t.data.take (min len.toNat s.availableWrite)).map some := by
            simp [State.published, hcom, ho, hda]
          have hl : t.data.length = len.toNat := hw.1
          have hlen : (t.data.take (min len.toNat s.availableWrite)).length = min len.toNat s.availableWrite := by
            rw [List.length_take]; omega
          have hpl : s.published.length = min len.toNat s.availableWrite := by rw [hp, List.length_map, hlen]
          refine ⟨by rw [hpl]; rfl, by omega, ?_, ?_⟩
          · intro j hj
            have := Memory.slot_writeElems (e := s.elemBytes) (n := s.slotCount) (base := s.wr.toNat) s.mem (j := 0) (t := j)
              (all_take hw.2 (min len.toNat s.availableWrite)) (by omega) (by omega)
            rw [Nat.zero_add] at this
            rw [hp, List.getElem?_map, List.getElem?_eq_getElem (by omega)]
            exact congrArg some this
          · intro i hni
            apply Memory.slot_writeElems_of_ne
            intro j hj
            rw [Nat.zero_add]
            exact hni j (by change j < (List.take _ t.data).length at hj; simp only [State.atPort_availableWrite] at hj; omega)
      case wspan n =>
        simp only [afterExec, legalPort, State.atPort_port, beq_self_eq_true, if_true, execBody]
        split
        · exact quiet (by simp [State.published, hcom]) rfl rfl
        · exact quiet (by simp [State.published, hcom]) rfl rfl
      case spanWr j =>
        simp only [afterExec, legalPort, State.atPort_port, beq_self_eq_true, if_true, execBody]
        split
        · exact quiet (by simp [State.published, hcom]) rfl rfl
        · split
          · exact quiet (by simp [State.published, hcom]) rfl rfl
          · next h1 h2 =>
            have hp : s.published = [] := by simp [State.published, hcom]
            have h2' : j.toNat < s.spanLen.toNat := by simpa using h2
            refine ⟨by rw [hp]; exact hid.symm, by rw [hp]; simp, by rw [hp]; simp, ?_⟩
            intro i hni
            apply Memory.slot_writeElems_of_ne
            intro q hq
            have : t.data.length = 1 := hw.1
            have hq : q < t.data.length := hq
            have h0 : q = 0 := by omega
            subst h0
            exact hni _ (by have := hi.grant_free; omega)
      case spanCommit =>
        simp only [afterExec, legalPort, State.atPort_port, beq_self_eq_true, if_true, execBody]
        by_cases ho : s.spanOpen = false
        · rw [if_pos (show (s.atPort .P t.data).spanOpen = false from ho)]
          exact quiet (by simp [State.published, hcom, ho]) rfl rfl
        · rw [if_neg (show ¬ (s.atPort .P t.data).spanOpen = false from ho)]
          have hp : s.published = (List.range s.spanLen.toNat).map (fun j => s.slot (idx s.slotCount s.wr.toNat j)) := by
            simp at ho
            simp [State.published, hcom, ho]
          have hpl : s.published.length = s.spanLen.toNat := by simp [hp]
          refine ⟨by rw [hpl]; rfl, by rw [hpl]; exact hi.grant_free, ?_, fun i _ => rfl⟩
          intro j hj
          rw [hp, List.getElem?_map, List.getElem?_range (by omega)]
          rfl
      case segRd a =>
        exact quiet (by simp [State.published, hcom]) rfl rfl
      case reset =>
        exact quiet (by simp [State.published, hcom]) rfl rfl
      all_goals
        simp only [afterExec]
        split
        · exact quiet (by simp [State.published, hcom]) rfl rfl
        · exact quiet (by simp [State.published, hcom]) rfl rfl

end Sys2Proof.Machine
end

