-- ==== Sys2Proof/Laws/PerInstr.lean ====
section
/-! SUPPORT. A law of each command as syntax, one lemma per constructor: what the fields of its word are, and that the word
fixes as much write data as the command takes (30_encoding.md R61, R62, R63, R65, R67). -/

namespace Sys2Proof.Laws.EncodedFields

/-- The fields of the word `{OP, 0, ARG}` (30_encoding.md R61). -/
theorem fields_of_word (op : Byte) (arg : Word) :
    fieldOp (op ++ 0#24 ++ arg) = op ∧ fieldRsv (op ++ 0#24 ++ arg) = 0#24 ∧ fieldArg (op ++ 0#24 ++ arg) = arg := by
  have hv : (op ++ 0#24 ++ arg).toNat = op.toNat * 2 ^ 56 + arg.toNat := by
    rw [BitVec.toNat_append, BitVec.toNat_append, ← Nat.shiftLeft_add_eq_or_of_lt (by exact arg.isLt),
      ← Nat.shiftLeft_add_eq_or_of_lt (by exact (0#24).isLt), Nat.shiftLeft_eq, Nat.shiftLeft_eq]
    simp only [BitVec.toNat_ofNat]
    omega
  have ha := arg.isLt
  have ho := op.isLt
  refine ⟨BitVec.eq_of_toNat_eq ?_, BitVec.eq_of_toNat_eq ?_, BitVec.eq_of_toNat_eq ?_⟩
  · rw [fieldOp, BitVec.extractLsb'_toNat, hv, Nat.shiftRight_eq_div_pow]; omega
  · rw [fieldRsv, BitVec.extractLsb'_toNat, hv, Nat.shiftRight_eq_div_pow, BitVec.toNat_ofNat]; omega
  · rw [fieldArg, BitVec.extractLsb'_toNat, hv, Nat.shiftRight_eq_div_pow]; omega

/-- The word of a command holds its opcode, zero, and its operand, and fixes the length of its write data. -/
def Statement (i : Instr) : Prop :=
  fieldOp (encode i) = i.opcode ∧ fieldRsv (encode i) = 0#24 ∧ fieldArg (encode i) = i.operand ∧
    writeLength (encode i) = i.dataCount

/-- Every command's word has the fields of R61; the write-data length is left. -/
theorem of_writeLength {i : Instr}
    (h : (if i.opcode = 0x01#8 then i.operand.toNat else if i.opcode = 0x03#8 then 1 else 0) = i.dataCount) :
    Statement i := by
  obtain ⟨h1, h2, h3⟩ := fields_of_word i.opcode i.operand
  refine ⟨h1, h2, h3, ?_⟩
  rw [writeLength, encode, h1, h3]
  exact h

theorem nop : Statement .nop := of_writeLength rfl
theorem push (len : Word) : Statement (.push len) := of_writeLength rfl
theorem wspan (amount : Word) : Statement (.wspan amount) := of_writeLength rfl
theorem spanWr (j : Word) : Statement (.spanWr j) := of_writeLength rfl
theorem spanCommit : Statement .spanCommit := of_writeLength rfl
theorem pop (len : Word) : Statement (.pop len) := of_writeLength rfl
theorem empty : Statement .empty := of_writeLength rfl
theorem full : Statement .full := of_writeLength rfl
theorem capacity : Statement .capacity := of_writeLength rfl
theorem availRead : Statement .availRead := of_writeLength rfl
theorem availWrite : Statement .availWrite := of_writeLength rfl
theorem elemInfo : Statement .elemInfo := of_writeLength rfl
theorem errStatus : Statement .errStatus := of_writeLength rfl
theorem segRd (a : Word) : Statement (.segRd a) := of_writeLength rfl
theorem reset : Statement .reset := of_writeLength rfl

end Sys2Proof.Laws.EncodedFields
end

