-- ==== Sys2Proof/Machine/Assembler.lean ====
section
/-! DEFINITION. The assembly text of 30_encoding.md R72: `<port>: <MNEMONIC> [<ARG>] [, [<d0>, …]]`, several commands of one
cycle on a line separated by `|` and begun with `cycle <n>:`. Not semantic (92_eei_decisions.md D34): nothing in the step
uses this file. Text is a list of characters, so that the kernel can read it. -/

namespace Sys2Proof.Machine

/-- The tokens of an assembly line. -/
inductive AsmToken where
  | word (cs : List Char)
  | colon
  | comma
  | listOpen
  | listClose
  | bar
  deriving DecidableEq, Repr

/-- A token that is one character long. -/
def asmMark (c : Char) : Option AsmToken :=
  if c = ':' then some .colon
  else if c = ',' then some .comma
  else if c = '[' then some .listOpen
  else if c = ']' then some .listClose
  else if c = '|' then some .bar
  else none

/-- A token list with the word read so far put before it, if there is one. -/
def asmFlush (acc : List Char) (ts : List AsmToken) : List AsmToken :=
  if acc.isEmpty then ts else .word acc.reverse :: ts

/-- The tokens of a line; `acc` is the word being read, last character first. Spaces separate words. -/
def asmTokens : List Char → List Char → List AsmToken
  | acc, [] => asmFlush acc []
  | acc, c :: cs =>
    match asmMark c with
    | some t => asmFlush acc (t :: asmTokens [] cs)
    | none => if c = ' ' then asmFlush acc (asmTokens [] cs) else asmTokens (c :: acc) cs

/-- The value of a digit in a base up to 16. -/
def asmDigit (base : Nat) (c : Char) : Option Nat :=
  let n := c.toNat
  let v := if 48 ≤ n ∧ n ≤ 57 then n - 48
    else if 97 ≤ n ∧ n ≤ 102 then n - 87
    else if 65 ≤ n ∧ n ≤ 70 then n - 55
    else 16
  if v < base then some v else none

/-- The number a digit string stands for, most significant digit first. -/
def asmDigits (base : Nat) : Nat → List Char → Option Nat
  | acc, [] => some acc
  | acc, c :: cs =>
    match asmDigit base c with
    | none => none
    | some d => asmDigits base (acc * base + d) cs

/-- A number, decimal or `0x`-hexadecimal (30_encoding.md R72). -/
def asmNumber : List Char → Option Nat
  | [] => none
  | ['0', 'x'] => none
  | '0' :: 'x' :: cs => asmDigits 16 0 cs
  | cs => asmDigits 10 0 cs

/-- The port letter. -/
def asmPort (cs : List Char) : Option Port :=
  if cs = ['P'] then some .P else if cs = ['C'] then some .C else if cs = ['H'] then some .H else none

/-- The zero-operand command of a mnemonic, whose operand is omitted (30_encoding.md R67, R72). -/
def asmPlain (cs : List Char) : Option Instr :=
  if cs = ['N', 'O', 'P'] then some .nop
  else if cs = ['S', 'P', 'A', 'N', '_', 'C', 'O', 'M', 'M', 'I', 'T'] then some .spanCommit
  else if cs = ['E', 'M', 'P', 'T', 'Y'] then some .empty
  else if cs = ['F', 'U', 'L', 'L'] then some .full
  else if cs = ['C', 'A', 'P', 'A', 'C', 'I', 'T', 'Y'] then some .capacity
  else if cs = ['A', 'V', 'A', 'I', 'L', '_', 'R', 'E', 'A', 'D'] then some .availRead
  else if cs = ['A', 'V', 'A', 'I', 'L', '_', 'W', 'R', 'I', 'T', 'E'] then some .availWrite
  else if cs = ['E', 'L', 'E', 'M', '_', 'I', 'N', 'F', 'O'] then some .elemInfo
  else if cs = ['E', 'R', 'R', '_', 'S', 'T', 'A', 'T', 'U', 'S'] then some .errStatus
  else if cs = ['R', 'E', 'S', 'E', 'T'] then some .reset
  else none

/-- The command of a mnemonic with an operand (30_encoding.md R65, R72). -/
def asmOperand (cs : List Char) (arg : Word) : Option Instr :=
  if cs = ['P', 'U', 'S', 'H'] then some (.push arg)
  else if cs = ['W', 'S', 'P', 'A', 'N'] then some (.wspan arg)
  else if cs = ['S', 'P', 'A', 'N', '_', 'W', 'R'] then some (.spanWr arg)
  else if cs = ['P', 'O', 'P'] then some (.pop arg)
  else if cs = ['S', 'E', 'G', '_', 'R', 'D'] then some (.segRd arg)
  else none

/-- The operand of a command line, a number that fits `ARG`. -/
def asmArg (cs : List Char) : Option Word :=
  match asmNumber cs with
  | none => none
  | some n => if n < 2 ^ 32 then some (BitVec.ofNat 32 n) else none

/-- An element of the bracketed list. -/
def asmElem (cs : List Char) : Option Elem :=
  match asmNumber cs with
  | none => none
  | some n => if n < 2 ^ 64 then some (BitVec.ofNat 64 n) else none

/-- The elements of the bracketed list after its first one, up to its end. -/
def asmListTail : List AsmToken → Option (List Elem)
  | [.listClose] => some []
  | .comma :: .word d :: ts =>
    match asmElem d, asmListTail ts with
    | some v, some vs => some (v :: vs)
    | _, _ => none
  | _ => none

/-- The bracketed list from its opening bracket. -/
def asmList : List AsmToken → Option (List Elem)
  | [.listOpen, .listClose] => some []
  | .listOpen :: .word d :: ts =>
    match asmElem d, asmListTail ts with
    | some v, some vs => some (v :: vs)
    | _, _ => none
  | _ => none

/-- A command with an operand: the bracketed list is there exactly for `PUSH` and `SPAN_WR`, with as many values as the
command takes (30_encoding.md R72). -/
def asmWithOperand (m a : List Char) (rest : List AsmToken) : Option Transaction :=
  match asmArg a with
  | none => none
  | some arg =>
    match asmOperand m arg with
    | none => none
    | some i =>
      match i, rest with
      | .push _, .comma :: ts | .spanWr _, .comma :: ts =>
        match asmList ts with
        | none => none
        | some data => if data.length = i.dataCount then some { cmd := encode i, data := data } else none
      | .push _, _ | .spanWr _, _ => none
      | _, [] => some { cmd := encode i, data := [] }
      | _, _ => none

/-- One command of a line, with its port. -/
def asmCommand : List AsmToken → Option (Port × Transaction)
  | .word p :: .colon :: .word m :: rest =>
    match asmPort p with
    | none => none
    | some x =>
      match rest with
      | [] => (asmPlain m).map (fun i => (x, { cmd := encode i, data := [] }))
      | .word a :: ts => (asmWithOperand m a ts).map (fun t => (x, t))
      | _ => none
  | _ => none

/-- The token lists between the `|` marks. -/
def asmSplit : List AsmToken → List AsmToken → List (List AsmToken)
  | acc, [] => [acc.reverse]
  | acc, .bar :: ts => acc.reverse :: asmSplit [] ts
  | acc, t :: ts => asmSplit (t :: acc) ts

/-- What one cycle presents on the three ports. -/
structure AsmCycle where
  P : Option Transaction
  C : Option Transaction
  H : Option Transaction
  deriving DecidableEq, Repr

/-- Put a command on its port; a port presents at most one command in a cycle (30_encoding.md R60). -/
def asmPlace (k : AsmCycle) (x : Port) (t : Transaction) : Option AsmCycle :=
  match x with
  | .P => if k.P = none then some { k with P := some t } else none
  | .C => if k.C = none then some { k with C := some t } else none
  | .H => if k.H = none then some { k with H := some t } else none

/-- The commands of a line; a port not named is idle (30_encoding.md R72). -/
def asmCommands : List (List AsmToken) → Option AsmCycle
  | [] => some { P := none, C := none, H := none }
  | ts :: rest =>
    match asmCommand ts, asmCommands rest with
    | some (x, t), some k => asmPlace k x t
    | _, _ => none

/-- One line of assembly text: its cycle number, if it gives one, and what that cycle presents. Several commands stand on one
line only after `cycle <n>:` (30_encoding.md R72). -/
def assembleLine (text : List Char) : Option (Option Nat × AsmCycle) :=
  match asmTokens [] text with
  | .word c :: .word n :: .colon :: ts =>
    if c = ['c', 'y', 'c', 'l', 'e'] then
      match asmNumber n, asmCommands (asmSplit [] ts) with
      | some k, some cyc => some (some k, cyc)
      | _, _ => none
    else none
  | ts =>
    match asmCommands [ts] with
    | some cyc => some (none, cyc)
    | none => none

/-- The machine with an assembled cycle put after what the agents still present (00_scope.md R13). The sequences are made
equally long first, a port that has presented everything being idle. -/
def State.appendCycle (s : State) (k : AsmCycle) : State :=
  let n := max s.inP.length (max s.inC.length s.inH.length)
  { s with
    inP := s.inP ++ List.replicate (n - s.inP.length) none ++ [k.P]
    inC := s.inC ++ List.replicate (n - s.inC.length) none ++ [k.C]
    inH := s.inH ++ List.replicate (n - s.inH.length) none ++ [k.H] }

end Sys2Proof.Machine
end

