-- ==== Sys2Proof/Tests/Slice0.lean ====
section
/-! SUPPORT. The model's own tests. Words, vectors and expected results are those of spec/95_test_vectors.md (named in each
comment) or are written out from the encoding tables of spec/30_encoding.md; configuration A is `CAP = 4`, `E = 1`. Then, for
every statement with hypotheses, a witness that meets them. -/

namespace Sys2Proof.Tests

open Sys2Proof Sys2Proof.Machine

/-- The next state of an outcome, if it is one. -/
def nextOf (o : Host.Outcome State Fault Refusal) : Option State :=
  match o with
  | .next t => some t
  | _ => none

/-- The refusal of an outcome, if it is one. -/
def refusalOf (o : Host.Outcome State Fault Refusal) : Option Refusal :=
  match o with
  | .refused r => some r
  | _ => none

theorem exists_next {o : Host.Outcome State Fault Refusal} (h : (nextOf o).isSome = true) : ∃ t, o = .next t := by
  cases o with
  | next t => exact ⟨t, rfl⟩
  | fault f => cases h
  | refused r => cases h

/-- Configuration A after power-on (95_test_vectors.md). -/
def ringA : State := State.resetWith { cap := 4, elemBytes := 1, elemKind := 0 }

/-- Configuration A with the cursors and the slot bytes given. -/
def ring (w r : Word) (m : Memory) : State := { ringA with wr := w, rd := r, mem := m }

/-- The memory of configuration A whose five slots hold the five bytes. -/
def slots5 (a b c d e : Byte) : Memory := [(8, a), (9, b), (10, c), (11, d), (12, e)]

/-- One command on one port, the others idle. -/
def one (s : State) (x : Port) (cmd : Command) (data : List Elem) : State := s.presentNext x { cmd := cmd, data := data }

/-- One cycle with a command on each of two or three ports. -/
def cycleOf (s : State) (p c h : Option Transaction) : State := { s with inP := [p], inC := [c], inH := [h] }

/-- The answer `OK` with a count and nothing else. -/
def okCount (c : Word) : Option Response := some ⟨.ok, c, [], zeroDesc⟩

/-! ### Decoding: words written out from 30_encoding.md R61 and R65, the fields `OP`, `RSV`, `ARG` in order -/

theorem test_decode_nop : decode (0x00#8 ++ 0x000000#24 ++ 0x00000000#32) = .ok .nop := rfl
theorem test_decode_push : decode 0x0100000000000003#64 = .ok (.push 3#32) := rfl
theorem test_decode_push_max : decode 0x01000000FFFFFFFF#64 = .ok (.push 4294967295#32) := rfl
theorem test_decode_wspan : decode 0x0200000000000009#64 = .ok (.wspan 9#32) := rfl
theorem test_decode_spanWr : decode 0x0300000000000001#64 = .ok (.spanWr 1#32) := rfl
theorem test_decode_spanCommit : decode 0x0400000000000000#64 = .ok .spanCommit := rfl
theorem test_decode_pop : decode 0x080000000000000A#64 = .ok (.pop 10#32) := rfl
theorem test_decode_empty : decode 0x1000000000000000#64 = .ok .empty := rfl
theorem test_decode_full : decode 0x1100000000000000#64 = .ok .full := rfl
theorem test_decode_capacity : decode 0x1200000000000000#64 = .ok .capacity := rfl
theorem test_decode_availRead : decode 0x1300000000000000#64 = .ok .availRead := rfl
theorem test_decode_availWrite : decode 0x1400000000000000#64 = .ok .availWrite := rfl
theorem test_decode_elemInfo : decode 0x1500000000000000#64 = .ok .elemInfo := rfl
theorem test_decode_errStatus : decode 0x1600000000000000#64 = .ok .errStatus := rfl
theorem test_decode_segRd : decode 0x200000000000000D#64 = .ok (.segRd 13#32) := rfl
theorem test_decode_reset : decode 0x3F00000000000000#64 = .ok .reset := rfl
/-- E4, E5, E6, E7, E9 and the opcodes beside the assigned ranges. -/
theorem test_decode_illegal :
    decode 0x0100000100000003#64 = .error .reservedNonzero ∧ decode 0x0500000000000000#64 = .error .unassignedOpcode ∧
    decode 0x1000000000000001#64 = .error .operandNonzero ∧ decode 0xFF00000000000000#64 = .error .unassignedOpcode ∧
    decode 0x01FFFFFF00000000#64 = .error .reservedNonzero ∧ decode 0x0700000000000000#64 = .error .unassignedOpcode ∧
    decode 0x0900000000000000#64 = .error .unassignedOpcode ∧ decode 0x1700000000000000#64 = .error .unassignedOpcode ∧
    decode 0x2100000000000000#64 = .error .unassignedOpcode ∧ decode 0x3E00000000000000#64 = .error .unassignedOpcode ∧
    decode 0x4000000000000000#64 = .error .unassignedOpcode := ⟨rfl, rfl, rfl, rfl, rfl, rfl, rfl, rfl, rfl, rfl, rfl⟩
theorem test_encode_push : encode (.push 3#32) = 0x0100000000000003#64 := rfl
theorem test_encode_reset : encode .reset = 0x3F00000000000000#64 := rfl

/-! ### Well-formedness: an ill-formed term for each check -/

theorem test_wellFormed_push : (Instr.push 2#32).wellFormed 1 [0x11#64, 0xFF#64] = true := by decide
theorem test_illFormed_length : (Instr.push 2#32).wellFormed 1 [0x11#64, 0x22#64, 0x33#64] = false := by decide
theorem test_illFormed_data_of_pop : (Instr.pop 2#32).wellFormed 1 [0x11#64] = false := by decide
theorem test_illFormed_width : (Instr.spanWr 0#32).wellFormed 1 [0x100#64] = false := by decide
theorem test_params_legal : ({ cap := 1, elemBytes := 1, elemKind := 0 } : Params).legal = true := by decide
theorem test_params_cap_zero : ({ cap := 0, elemBytes := 1, elemKind := 0 } : Params).legal = false := by decide
theorem test_params_elem_three : ({ cap := 4, elemBytes := 3, elemKind := 0 } : Params).legal = false := by decide
theorem test_params_kind_two : ({ cap := 4, elemBytes := 4, elemKind := 2 } : Params).legal = false := by decide
theorem test_params_float_byte : ({ cap := 4, elemBytes := 1, elemKind := 1 } : Params).legal = false := by decide
theorem test_params_too_large : ({ cap := 4294967288, elemBytes := 1, elemKind := 0 } : Params).legal = false := by decide
theorem test_construct_length :
    (construct { cap := 4, elemBytes := 1, elemKind := 0 } (some 13)).toOption.isSome = true ∧
    constructionError { cap := 4, elemBytes := 1, elemKind := 0 } (some 12) = some .segmentTooSmall := by decide
theorem test_shared_port :
    (ringA.startSession [(.P, []), (.P, [])]).toOption.isSome = false ∧
    (ringA.startSession [(.P, []), (.C, [none])]).toOption.isSome = true := by decide

/-! ### One cycle each (95_test_vectors.md L2) -/

/-- T5: a wrapping push. -/
theorem test_push_wraps :
    (nextOf (step (one (ring 4 2 (slots5 0x11 0x22 0x33 0x44 0)) .P 0x0100000000000002#64 [0x77, 0x88]))).map
      (fun t => (t.wr, t.rd, t.slot 4, t.slot 0, t.rspP)) = some (1, 2, some 0x77, some 0x88, okCount 2) := by decide
/-- T12: a request above `CAP` never fills the reserved slot. -/
theorem test_push_short :
    (nextOf (step (one ringA .P 0x0100000000000009#64 [1, 2, 3, 4, 5, 6, 7, 8, 9]))).map
      (fun t => (t.wr, t.slot 3, t.slot 4, t.rspP)) = some (4, some 4, none, okCount 4) := by decide
/-- T6: a short, wrapping pop. -/
theorem test_pop_wraps :
    (nextOf (step (one (ring 1 2 (slots5 0x88 0x22 0x33 0x44 0x77)) .C 0x080000000000000A#64 []))).map
      (fun t => (t.wr, t.rd, t.rspC)) = some (1, 1, some ⟨.ok, 4, [0x33, 0x44, 0x77, 0x88], zeroDesc⟩) := by decide
/-- T7: a pop from an empty ring. -/
theorem test_pop_empty :
    (nextOf (step (one (ring 1 1 []) .C 0x0800000000000001#64 []))).map (fun t => (t.wr, t.rd, t.rspC)) =
      some (1, 1, okCount 0) := by decide
/-- S2: a wrapping grant. -/
theorem test_wspan_wraps :
    (nextOf (step (one (ring 4 2 []) .P 0x0200000000000003#64 []))).map (fun t => (t.wr, t.spanOpen, t.spanLen, t.rspP)) =
      some (4, true, 2, some ⟨.ok, 2, [], ⟨4, 1, 0, 1⟩⟩) := by decide
/-- S5: a second grant. -/
theorem test_wspan_open :
    (nextOf (step (one ((ring 3 1 []).setWindow true 2) .P 0x0200000000000001#64 []))).map
      (fun t => (t.spanLen, t.errP, t.rspP.map (·.status))) = some (2, 0x13, some .spanOpen) := by decide
/-- S2b: logical offset 1 is slot 0. -/
theorem test_spanWr_wraps :
    (nextOf (step (one ((ring 4 2 []).setWindow true 2) .P 0x0300000000000001#64 [0xA1]))).map
      (fun t => (t.slot 0, t.wr, t.rspP)) = some (some 0xA1, 4, okCount 0) := by decide
/-- S3: the offset equal to the grant. -/
theorem test_spanWr_range :
    (nextOf (step (one ((ring 4 2 []).setWindow true 2) .P 0x0300000000000002#64 [0xEE]))).map
      (fun t => (t.mem, t.errP, t.rspP)) = some ([], 0x15, some (errorResponse .spanRange)) := by decide
/-- S1b: a commit that wraps the cursor to 0. -/
theorem test_commit_wraps :
    (nextOf (step (one ((ring 3 1 []).setWindow true 2) .P 0x0400000000000000#64 []))).map
      (fun t => (t.wr, t.spanOpen, t.spanLen, t.rspP)) = some (0, false, 0, okCount 2) := by decide
/-- S6: a commit without a grant. -/
theorem test_commit_no_span :
    (nextOf (step (one ringA .P 0x0400000000000000#64 []))).map (fun t => (t.errP, t.rspP.map (·.status))) =
      some (0x14, some .noSpan) := by decide
/-- Q9. -/
theorem test_nop : (nextOf (step (one ringA .H 0#64 []))).map (fun t => (t.rspH, t.rspP)) = some (okCount 0, none) := by decide
/-- Q2, Q1. -/
theorem test_empty :
    (nextOf (step (one (ring 4 0 []) .C 0x1000000000000000#64 []))).map (·.rspC) = some (okCount 0) ∧
    (nextOf (step (one ringA .P 0x1000000000000000#64 []))).map (·.rspP) = some (okCount 1) := by decide
/-- Q4, Q3. -/
theorem test_full :
    (nextOf (step (one (ring 1 2 []) .P 0x1100000000000000#64 []))).map (·.rspP) = some (okCount 1) ∧
    (nextOf (step (one (ring 1 3 []) .P 0x1100000000000000#64 []))).map (·.rspP) = some (okCount 0) := by decide
/-- Q7. -/
theorem test_capacity :
    (nextOf (step (one State.reset .H 0x1200000000000000#64 []))).map (·.rspH) = some (okCount 10) := by decide
/-- Q3. -/
theorem test_availRead :
    (nextOf (step (one (ring 1 3 []) .C 0x1300000000000000#64 []))).map (·.rspC) = some (okCount 3) := by decide
/-- Q3. -/
theorem test_availWrite :
    (nextOf (step (one (ring 1 3 []) .P 0x1400000000000000#64 []))).map (·.rspP) = some (okCount 1) := by decide
/-- Q7. -/
theorem test_elemInfo :
    (nextOf (step (one State.reset .C 0x1500000000000000#64 []))).map (·.rspC) = some (okCount 0x104) := by decide
/-- Q5. -/
theorem test_errStatus :
    (nextOf (step (one ((ringA.setErr .P 0x12).setErr .C 0x12) .H 0x1600000000000000#64 []))).map (·.rspH) =
      some (okCount 0x1212) := by decide
/-- H3: the byte of the unset slot 3 is drawn, the others are the slots'. -/
theorem test_segRd_low_bytes :
    ((nextOf (step (one (ring 3 0 [(8, 0x11), (9, 0x22), (10, 0x33)]) .H 0x2000000000000000#64 []))).map (·.rspH)) =
      some (okCount 3) := by decide
/-- H8: one 8-byte slot takes two words, the low half first. -/
theorem test_segRd_eight_bytes :
    (nextOf (step (one { State.resetWith { cap := 1, elemBytes := 8, elemKind := 0 } with
        wr := 1, mem := [(8, 0x88), (9, 0x77), (10, 0x66), (11, 0x55), (12, 0x44), (13, 0x33), (14, 0x22), (15, 0x11)] }
      .H 0x200000000000000C#64 []))).map (·.rspH) = some (okCount 0x11223344) := by decide
/-- H9: a ring in mid-session and the `RESET` presented to it. -/
def resetPresented : State :=
  one (((ring 3 1 (slots5 1 2 3 4 5)).setErr .P 0x12).setWindow true 1) .H 0x3F00000000000000#64 []
theorem test_reset_storage :
    (nextOf (step resetPresented)).map (fun t => (t.wr, t.rd, t.mem)) = some (0, 0, []) := by decide
theorem test_reset_window :
    (nextOf (step resetPresented)).map (fun t => (t.spanOpen, t.spanLen, t.errP, t.rspH)) = some (false, 0, 0, okCount 0) := by
  decide
/-- H10: a command in the cycle of a `RESET` is aborted. -/
theorem test_reset_aborts :
    (nextOf (step (cycleOf (ring 3 1 []) (some ⟨0x0100000000000001#64, [9]⟩) none (some ⟨0x3F00000000000000#64, []⟩)))).map
      (fun t => (t.wr, t.errP, t.rspP, t.rspC)) = some (0, 0, some (errorResponse .aborted), none) := by decide
/-- H11: an illegal `RESET` resets nothing. -/
theorem test_illegal_reset :
    (nextOf (step (cycleOf (ring 3 1 []) (some ⟨0x0100000000000001#64, [9]⟩) none (some ⟨0x3F00000000000001#64, []⟩)))).map
      (fun t => (t.wr, t.errH, t.rspP, t.rspH)) = some (4, 0x11, okCount 1, some (errorResponse .illegal)) := by decide
/-- X1: a full ring, a push and a pop in one cycle: the producer sees no space. -/
theorem test_same_cycle_full :
    (nextOf (step (cycleOf (ring 4 0 (slots5 0xA 0xB 0xC 0xD 0)) (some ⟨0x0100000000000001#64, [0xF]⟩)
      (some ⟨0x0800000000000001#64, []⟩) none))).map (fun t => (t.wr, t.rd, t.rspP, t.rspC)) =
      some (4, 1, okCount 0, some ⟨.ok, 1, [0xA], zeroDesc⟩) := by decide
/-- X4: the host reads the write cursor of the start of the cycle. -/
theorem test_same_cycle_three :
    (nextOf (step (cycleOf (ring 3 0 (slots5 1 2 3 0 0)) (some ⟨0x0100000000000001#64, [0xF]⟩)
      (some ⟨0x0800000000000002#64, []⟩) (some ⟨0x2000000000000000#64, []⟩)))).map (fun t => (t.wr, t.rd, t.rspP, t.rspH)) =
      some (4, 2, okCount 1, okCount 3) := by decide
/-- X5: both commands on the wrong port. -/
theorem test_wrong_ports :
    (nextOf (step (cycleOf ringA (some ⟨0x0800000000000001#64, []⟩) (some ⟨0x0100000000000001#64, [0xF]⟩) none))).map
      (fun t => (t.wr, t.rd, t.errP, t.errC)) = some (0, 0, 0x12, 0x12) := by decide
/-- E10: a data length other than `ARG` is refused. -/
theorem test_data_length : refusalOf (step (one ringA .P 0x0100000000000002#64 [1, 2, 3])) = some .dataLength := by decide
theorem test_element_width : refusalOf (step (one ringA .P 0x0100000000000001#64 [0x100])) = some .elementWidth := by decide
theorem test_session_end : refusalOf (step ringA) = some .sessionEnd := by decide
/-- L3-5 cycle 4: the first error is kept. -/
theorem test_first_error_kept :
    (nextOf (step (one ((ringA.setErr .P 0x14).setWindow true 3) .P 0x0100000000000001#64 [3]))).map (·.errP) =
      some 0x14 := by decide
theorem test_withFetchWord :
    (nextOf (step (State.reset.withFetchWord 64 0x0100000000000003))).map (·.rspP) = some (okCount 3) := by decide
/-- R72's examples. -/
theorem test_assemble_push :
    assembleLine ['P', ':', ' ', 'P', 'U', 'S', 'H', ' ', '3', ',', ' ', '[', '0', 'x', '1', '1', ',', ' ', '0', 'x', '2', '2',
      ',', ' ', '0', 'x', '3', '3', ']'] =
      some (none, ⟨some ⟨0x0100000000000003#64, [0x11, 0x22, 0x33]⟩, none, none⟩) := by decide
theorem test_assemble_cycle :
    assembleLine ['c', 'y', 'c', 'l', 'e', ' ', '4', ':', ' ', 'P', ':', ' ', 'P', 'U', 'S', 'H', ' ', '1', ',', ' ', '[', '0',
      'x', '7', 'A', ']', ' ', '|', ' ', 'C', ':', ' ', 'P', 'O', 'P', ' ', '1'] =
      some (some 4, ⟨some ⟨0x0100000000000001#64, [0x7A]⟩, some ⟨0x0800000000000001#64, []⟩, none⟩) := by decide
/-- R73: a part of the caller's buffer is pushed; a short pop leaves the rest of the buffer. -/
theorem test_driver :
    driverPush [1, 2, 3, 4] none (some 1) = some ⟨0x0100000000000003#64, [2, 3, 4]⟩ ∧
    driverPush [1, 2, 3, 4] (some 4) (some 1) = none ∧
    driverPopStore [9, 9, 9, 9] (some 1) [1, 2] = [9, 1, 2, 9] := by decide

/-! ### Witnesses: for every statement with hypotheses, something that meets them -/

/-- A ring in mid-session: three elements, an open window of one slot, a recorded error. -/
def busy : State := ((ring 3 0 (slots5 1 2 3 4 5)).setErr .P 0x14).setWindow true 1

theorem ring_inv (w r : Word) (hw : w.toNat < 5) (hr : r.toNat < 5) : (ring w r (slots5 1 2 3 4 5)).Inv where
  legal := show (Params.legal { cap := 4, elemBytes := 1, elemKind := 0 }) = true by decide
  wr_lt := hw
  rd_lt := hr
  closed := fun _ => rfl
  grant_free := Nat.zero_le _
  mem_wf := show Memory.wf (slots5 1 2 3 4 5) by decide
  mem_range := show ∀ c ∈ slots5 1 2 3 4 5, 8 ≤ c.1 ∧ c.1 < 13 by decide
  whole_slots := show ∀ i < 5, ∀ k < 1, (Memory.read (slots5 1 2 3 4 5) (slotAddr 1 i + k)).isSome =
    (Memory.slot 1 (slots5 1 2 3 4 5) i).isSome by decide
  errP_ok := show errInv 0#5 by decide
  errC_ok := show errInv 0#5 by decide
  errH_ok := show errInv 0#5 by decide

theorem busy_inv : busy.Inv where
  legal := by decide
  wr_lt := by decide
  rd_lt := by decide
  closed := by decide
  grant_free := by decide
  mem_wf := by decide
  mem_range := by decide
  whole_slots := by decide
  errP_ok := by decide
  errC_ok := by decide
  errH_ok := by decide

/-- What is still presented is no part of the invariant. -/
theorem inv_present {s : State} (h : s.Inv) (a b c : List (Option Transaction)) :
    ({ s with inP := a, inC := b, inH := c } : State).Inv :=
  ⟨h.legal, h.wr_lt, h.rd_lt, h.closed, h.grant_free, h.mem_wf, h.mem_range, h.whole_slots, h.errP_ok, h.errC_ok, h.errH_ok⟩

/-- A cycle of `busy` in which all three ports present something. -/
def busyCycle : State :=
  cycleOf busy (some ⟨0x0400000000000000#64, []⟩) (some ⟨0x0800000000000002#64, []⟩) (some ⟨0x2000000000000008#64, []⟩)

theorem busyCycle_inv : busyCycle.Inv := inv_present busy_inv _ _ _

theorem busyCycle_next : ∃ t, step busyCycle = .next t := exists_next (by decide)

/-- A cycle of `busy` that leaves the window open. -/
def openCycle : State :=
  cycleOf busy (some ⟨0x0300000000000000#64, [7]⟩) (some ⟨0x0800000000000002#64, []⟩) none

theorem openCycle_inv : openCycle.Inv := inv_present busy_inv _ _ _

/-- A cycle of `busy` with a legal `RESET`. -/
def resetCycleState : State :=
  cycleOf busy (some ⟨0x0400000000000000#64, []⟩) none (some ⟨0x3F00000000000000#64, []⟩)

theorem resetCycleState_next : ∃ t, step resetCycleState = .next t ∧ resetCycleState.resets = true :=
  let ⟨t, h⟩ := exists_next (o := step resetCycleState) (by decide)
  ⟨t, h, by decide⟩

/-- The first and the last slot, the first and the last slot byte. -/
theorem witness_ResetStateValues :
    ringA.params.legal = true ∧ 0 < ringA.slotCount ∧ 4 < ringA.slotCount ∧ 8 < ringA.segBytes ∧ 12 < ringA.segBytes := by decide
/-- The smallest block and the largest byte ring. -/
theorem witness_LegalParameters :
    (∃ s, construct { cap := 1, elemBytes := 8, elemKind := 1 } none = .ok s) ∧
    ({ cap := 4294967287, elemBytes := 1, elemKind := 0 } : Params).legal = true := ⟨⟨_, rfl⟩, by decide⟩
theorem witness_PowerOnIsReset : ({ cap := 1, elemBytes := 1, elemKind := 0 } : Params).legal = true := by decide
theorem witness_InvAtReset :
    construct { cap := 4, elemBytes := 1, elemKind := 0 } none = .ok ringA ∧
    ∃ s, ringA.startSession [(.P, [none]), (.C, [])] = .ok s := ⟨rfl, ⟨_, rfl⟩⟩
theorem witness_StepKeepsInv : busyCycle.Inv ∧ ∃ t, step busyCycle = .next t := ⟨busyCycle_inv, busyCycle_next⟩
theorem witness_IllegalWords :
    (one ringA .C 0x1000000000000001#64 []).presentedAt .C = some ⟨0x1000000000000001#64, []⟩ ∧
    decode 0x1000000000000001#64 = .error .operandNonzero := ⟨rfl, rfl⟩
theorem witness_StepRunsDecoded :
    busyCycle.params.legal = true ∧ busyCycle.presentedAt .P = some ⟨0x0400000000000000#64, []⟩ ∧
    busyCycle.presentedAt .C = some ⟨0x0800000000000002#64, []⟩ ∧ busyCycle.presentedAt .H = some ⟨0x2000000000000008#64, []⟩ ∧
    decode 0x0400000000000000#64 = .ok .spanCommit ∧ decode 0x0800000000000002#64 = .ok (.pop 2#32) ∧
    decode 0x2000000000000008#64 = .ok (.segRd 8#32) ∧ (∃ u, exec .spanCommit (busyCycle.atPort .P []) = .next u) ∧
    (∃ u, exec (.pop 2#32) (busyCycle.atPort .C []) = .next u) ∧ ∃ u, exec (.segRd 8#32) (busyCycle.atPort .H []) = .next u :=
  ⟨by decide, rfl, rfl, rfl, rfl, rfl, rfl, exists_next (by decide), exists_next (by decide), exists_next (by decide)⟩
/-- A command on `P` alone, and `RESET` on `H` alone. -/
theorem witness_StepRunsOnePort :
    (one ringA .P 0x0100000000000001#64 [7]).params.legal = true ∧
    (one ringA .P 0x0100000000000001#64 [7]).presentedAt .P = some ⟨0x0100000000000001#64, [7]⟩ ∧
    (∀ y, y ≠ .P → (one ringA .P 0x0100000000000001#64 [7]).presentedAt y = none) ∧
    decode 0x0100000000000001#64 = .ok (.push 1#32) ∧
    (∃ u, exec (.push 1#32) ((one ringA .P 0x0100000000000001#64 [7]).atPort .P [7]) = .next u) ∧
    (∀ y, y ≠ .H → (one ringA .H 0x3F00000000000000#64 []).presentedAt y = none) ∧
    ∃ u, exec .reset ((one ringA .H 0x3F00000000000000#64 []).atPort .H []) = .next u := by
  refine ⟨by decide, rfl, ?_, rfl, exists_next (by decide), ?_, exists_next (by decide)⟩ <;>
    · intro y hy; cases y <;> first | rfl | exact absurd rfl hy
/-- One command of each of the four kinds, each with its own write data. -/
theorem witness_PortLegality :
    (Instr.push 1#32).wellFormed (ringA.atPort .C [7]).elemBytes (ringA.atPort .C [7]).wdata = true ∧
    (Instr.pop 1#32).wellFormed ringA.elemBytes ringA.wdata = true ∧ Instr.reset.wellFormed ringA.elemBytes ringA.wdata = true ∧
    Instr.empty.wellFormed ringA.elemBytes ringA.wdata = true := by decide
/-- The branches of the check order, one after the other, each with well-formed write data: port, window open, no window, offset
equal to the grant, alignment, the first aligned address past the segment, and none. -/
theorem witness_CheckOrder :
    ((Instr.push 1#32).wellFormed 1 (ringA.atPort .C [7]).wdata = true ∧ legalPort (.push 1#32) (ringA.atPort .C [7]).port = false) ∧
    ((Instr.push 1#32).wellFormed 1 (busy.atPort .P [7]).wdata = true ∧ legalPort (.push 1#32) (busy.atPort .P [7]).port = true ∧
      (busy.atPort .P [7]).spanOpen = true) ∧
    (Instr.spanCommit.wellFormed 1 (ringA.atPort .P []).wdata = true ∧ legalPort .spanCommit (ringA.atPort .P []).port = true ∧
      (ringA.atPort .P []).spanOpen = false) ∧
    ((Instr.spanWr 1#32).wellFormed 1 (busy.atPort .P [7]).wdata = true ∧
      (busy.atPort .P [7]).spanLen.toNat ≤ (1#32).toNat ∧ ¬ (busy.atPort .P [7]).spanLen.toNat ≤ (0#32).toNat) ∧
    ((Instr.segRd 2#32).wellFormed 1 (ringA.atPort .H []).wdata = true ∧ (2#32).toNat % 4 ≠ 0 ∧ (16#32).toNat % 4 = 0 ∧
      (ringA.atPort .H []).segBytes ≤ (16#32).toNat ∧ ¬ (ringA.atPort .H []).segBytes ≤ (12#32).toNat) := by decide
/-- An illegal word, and a legal one, presented on port `C`. -/
theorem witness_CheckOrder_decode :
    (one ringA .C 0x1000000000000001#64 []).presentedAt .C = some ⟨0x1000000000000001#64, []⟩ ∧
    decode 0x1000000000000001#64 = .error .operandNonzero ∧
    (one ringA .C 0x1000000000000000#64 []).presentedAt .C = some ⟨0x1000000000000000#64, []⟩ ∧
    decode 0x1000000000000000#64 = .ok .empty := ⟨rfl, rfl, rfl, rfl⟩
theorem witness_ErrorEffect :
    ∃ t r, exec (.push 1#32) (ringA.atPort .C [7]) = .next t ∧ t.rspOf (ringA.atPort .C [7]).port = some r ∧ r.status ≠ .ok :=
  ⟨_, errorResponse .wrongPort, rfl, rfl, by decide⟩
theorem witness_StickyErrors :
    (∃ t, step busyCycle = .next t ∧ busyCycle.resets = false) ∧
    ∃ t, step resetCycleState = .next t ∧ resetCycleState.resets = true :=
  ⟨let ⟨t, h⟩ := busyCycle_next; ⟨t, h, by decide⟩, resetCycleState_next⟩
theorem witness_QueryAnswers : busy.wdata = [] := rfl
theorem witness_PackedAnswers : (ringA.setErr .H 0x17).wdata = [] := rfl
theorem witness_ReadOnlyFrame :
    ∃ t r, exec (.segRd 4#32) (busy.atPort .H []) = .next t ∧ t.rspOf (busy.atPort .H []).port = some r ∧ r.status = .ok :=
  ⟨_, ⟨.ok, (busy.atPort .H []).segWord 4, [], zeroDesc⟩, rfl, rfl, rfl⟩
theorem witness_PushResult :
    (ringA.atPort .P [7, 8]).port = .P ∧ (ringA.atPort .P [7, 8]).spanOpen = false ∧
    (Instr.push 2#32).wellFormed (ringA.atPort .P [7, 8]).elemBytes (ringA.atPort .P [7, 8]).wdata = true := by decide
/-- A set slot delivered, and an unset one. -/
theorem witness_PopResult :
    (busy.atPort .C []).port = .C ∧ (busy.atPort .C []).wdata = [] ∧
    0 < min (2#32).toNat (busy.atPort .C []).availableRead ∧
    (busy.atPort .C []).slot (idx (busy.atPort .C []).slotCount (busy.atPort .C []).rd.toNat 0) = some 1 ∧
    0 < min (1#32).toNat ((ring 1 0 []).atPort .C []).availableRead ∧ ((ring 1 0 []).atPort .C []).slot 0 = none := by decide
/-- Length 0, a full ring, and an empty ring. -/
theorem witness_NothingMoves :
    (((ring 1 0 []).atPort .P []).wr.toNat < ((ring 1 0 []).atPort .P []).slotCount ∧
      ((ring 1 0 []).atPort .P []).rd.toNat < ((ring 1 0 []).atPort .P []).slotCount ∧ ((ring 1 0 []).atPort .P []).spanOpen = false ∧
      (Instr.push 0#32).wellFormed 1 ((ring 1 0 []).atPort .P []).wdata = true) ∧
    (((ring 4 0 []).atPort .P [7]).wr.toNat < ((ring 4 0 []).atPort .P [7]).slotCount ∧ ((ring 4 0 []).atPort .P [7]).isFull = true ∧
      ((ring 4 0 []).atPort .P [7]).spanOpen = false ∧
      (Instr.push 1#32).wellFormed 1 ((ring 4 0 []).atPort .P [7]).wdata = true) ∧
    (((ring 1 1 []).atPort .C []).port = .C ∧ ((ring 1 1 []).atPort .C []).wdata = [] ∧
      ((ring 1 1 []).atPort .C []).isEmpty = true) := by decide
theorem witness_WspanResult :
    (ringA.atPort .P []).port = .P ∧ (ringA.atPort .P []).spanOpen = false ∧ (ringA.atPort .P []).wdata = [] := by decide
/-- The last slot with the longest transfer, and a transfer that ends at the top. -/
theorem witness_SplitCovers : 4 < 5 ∧ splitLen1 5 4 4 = 1 ∧ 2 + 3 = 5 ∧ splitLen1 5 2 3 = 3 := by decide
theorem witness_SpanWrResult :
    (busy.atPort .P [7]).port = .P ∧ (busy.atPort .P [7]).spanOpen = true ∧
    (0#32).toNat < (busy.atPort .P [7]).spanLen.toNat ∧ (busy.atPort .P [7]).wdata = [7] ∧
    elemFits (busy.atPort .P [7]).elemBytes 7 = true := by decide
theorem witness_SpanCommitResult :
    (busy.atPort .P []).port = .P ∧ (busy.atPort .P []).spanOpen = true ∧ (busy.atPort .P []).wdata = [] := by decide
/-- A set slot and an unset one, in a legal ring. -/
theorem witness_SegmentBytes :
    busy.params.legal = true ∧ 0 < busy.elemBytes ∧ busy.slot 4 = some 5 ∧ ringA.slot 4 = none := by decide
/-- The cursors' words and the last word, which ends past the segment. -/
theorem witness_SegRdResult :
    (busy.atPort .H []).port = .H ∧ (busy.atPort .H []).wdata = [] ∧ (0#32).toNat < (busy.atPort .H []).segBytes ∧
    (4#32).toNat < (busy.atPort .H []).segBytes ∧ (12#32).toNat % 4 = 0 ∧ (12#32).toNat < (busy.atPort .H []).segBytes ∧
    ¬ (12#32).toNat + 1 < (busy.atPort .H []).segBytes := by decide
theorem witness_ResetResult : (busy.atPort .H []).port = .H ∧ (busy.atPort .H []).wdata = [] := by decide
theorem witness_ResetAborts : ∃ t, step resetCycleState = .next t ∧ resetCycleState.resets = true := resetCycleState_next
theorem witness_AvailableSum : busy.Inv := busy_inv
/-- A filled slot, the reserved one and a free one of the same ring. -/
theorem witness_SlotPartition :
    busy.Inv ∧ idx busy.slotCount busy.rd.toNat 0 = 0 ∧ idx busy.slotCount busy.rd.toNat 4 = 4 ∧
    idx busy.slotCount busy.wr.toNat 0 = 3 := ⟨busy_inv, by decide, by decide, by decide⟩
theorem witness_StalenessBound : busyCycle.Inv ∧ (∃ t, step busyCycle = .next t) ∧ busyCycle.resets = false :=
  ⟨busyCycle_inv, busyCycle_next, by decide⟩
/-- A command that moves the write cursor, one that moves the read cursor, one that writes a slot, one on the host port, and
`RESET` there. -/
theorem witness_SingleWriter :
    (∃ t, exec .spanCommit (busy.atPort .P []) = .next t ∧ t.wr ≠ busy.wr) ∧
    (∃ t, exec (.pop 1#32) (busy.atPort .C []) = .next t ∧ t.rd ≠ busy.rd) ∧
    (∃ t, exec (.spanWr 0#32) (busy.atPort .P [7]) = .next t ∧ t.mem ≠ busy.mem) ∧
    (∃ t, exec .nop (busy.atPort .H []) = .next t) ∧ (∃ t, exec .reset (busy.atPort .H []) = .next t) ∧
    busy.slot 0 = some 1 :=
  ⟨⟨_, rfl, by decide⟩, ⟨_, rfl, by decide⟩, ⟨_, rfl, by decide⟩, ⟨_, rfl⟩, ⟨_, rfl⟩, by decide⟩
theorem witness_UpdateSets :
    (∃ t, exec .spanCommit (busy.atPort .P []) = .next t) ∧ (∃ t, exec (.pop 1#32) (busy.atPort .C []) = .next t) ∧
    ∃ t, exec (.segRd 8#32) (busy.atPort .H []) = .next t := ⟨⟨_, rfl⟩, ⟨_, rfl⟩, ⟨_, rfl⟩⟩
theorem witness_FifoCycle :
    busyCycle.Inv ∧ (∃ t, step busyCycle = .next t) ∧ busyCycle.resets = false ∧ busyCycle.commandAt .C = some (.pop 2#32) ∧
    busyCycle.contents[0]? = some (some 1) := ⟨busyCycle_inv, busyCycle_next, by decide, by decide, by decide⟩
theorem witness_FifoRun : busyCycle.Inv ∧ resetFree 1 busyCycle = true ∧ ∃ t, core.run 1 busyCycle = .next t :=
  ⟨busyCycle_inv, by decide, exists_next (by decide)⟩
/-- An empty ring whose transfer wraps, at the full capacity. -/
def emptyThree : State := (ring 3 3 (slots5 1 2 3 4 5)).atPort .P [6, 7, 8, 9]

theorem emptyThree_inv : emptyThree.Inv :=
  let h := ring_inv 3 3 (by decide) (by decide)
  ⟨h.legal, h.wr_lt, h.rd_lt, h.closed, h.grant_free, h.mem_wf, h.mem_range, h.whole_slots, h.errP_ok, h.errC_ok, h.errH_ok⟩

theorem witness_PushPopRoundTrip :
    emptyThree.Inv ∧ emptyThree.rd = emptyThree.wr ∧ emptyThree.port = .P ∧ emptyThree.spanOpen = false ∧
    (4#32).toNat ≤ emptyThree.cap ∧ (Instr.push 4#32).wellFormed emptyThree.elemBytes emptyThree.wdata = true :=
  ⟨emptyThree_inv, rfl, rfl, rfl, by decide, by decide⟩
/-- `PUSH 2` at the wrap, and a later state in which a `WSPAN` and a `SPAN_WR` have opened a window and changed a free slot. -/
def pushedTwo : State := (ring 4 4 (slots5 1 2 3 4 5)).atPort .P [6, 7]
theorem pushedTwo_inv : pushedTwo.Inv :=
  let h := ring_inv 4 4 (by decide) (by decide)
  ⟨h.legal, h.wr_lt, h.rd_lt, h.closed, h.grant_free, h.mem_wf, h.mem_range, h.whole_slots, h.errP_ok, h.errC_ok, h.errH_ok⟩

theorem witness_PushPopRoundTrip_later :
    (pushedTwo.Inv ∧ pushedTwo.rd = pushedTwo.wr ∧ pushedTwo.port = .P ∧ pushedTwo.spanOpen = false ∧
      (2#32).toNat ≤ pushedTwo.cap ∧ (Instr.push 2#32).wellFormed pushedTwo.elemBytes pushedTwo.wdata = true) ∧
    ∃ t, exec (.push 2#32) pushedTwo = .next t ∧
      ∃ t' : State, t'.wr = t.wr ∧ t'.rd = t.rd ∧ t.sameConfig t' ∧ t'.port = .C ∧ t'.wdata = [] ∧ t'.spanOpen = true ∧
        t'.mem ≠ t.mem ∧
        ∀ j < (2#32).toNat, t'.slot (idx t.slotCount t.rd.toNat j) = t.slot (idx t.slotCount t.rd.toNat j) :=
  ⟨⟨pushedTwo_inv, rfl, rfl, rfl, by decide, by decide⟩, _, rfl, { (ring 1 4 (slots5 7 9 3 4 6)).atPort .C [] with spanOpen := true, spanLen := 1 },
    rfl, rfl, ⟨rfl, rfl, rfl⟩, rfl, rfl, rfl, by decide, by decide⟩
/-- Two cycles in which port `C` presents the same and port `P` does not. -/
theorem witness_PortsIndependent :
    busyCycle.resets = false ∧ openCycle.resets = false ∧ openCycle.presentedAt .C = busyCycle.presentedAt .C ∧
    (∃ t, step busyCycle = .next t) ∧ (∃ t, step openCycle = .next t) ∧
    openCycle = { busyCycle with inP := openCycle.inP, inC := openCycle.inC, inH := openCycle.inH } :=
  ⟨by decide, by decide, by decide, busyCycle_next, exists_next (by decide), rfl⟩
/-- A cycle of `busy` with its `SPAN_COMMIT` on port `P` and nothing on the others. -/
def commitCycle : State := cycleOf busy (some ⟨0x0400000000000000#64, []⟩) none none
/-- Two cycles in which port `P` presents the same, which writes, and port `C` does not. -/
theorem witness_PortsIndependent_producer :
    busyCycle.resets = false ∧ commitCycle.resets = false ∧ commitCycle.presentedAt .P = busyCycle.presentedAt .P ∧
    (∃ t, step busyCycle = .next t) ∧ (∃ t, step commitCycle = .next t ∧ t.wr ≠ commitCycle.wr) ∧
    commitCycle = { busyCycle with inP := commitCycle.inP, inC := commitCycle.inC, inH := commitCycle.inH } :=
  ⟨by decide, by decide, by decide, busyCycle_next, ⟨_, rfl, by decide⟩, rfl⟩
theorem witness_EveryCommandAnswered :
    busyCycle.params.legal = true ∧ busyCycle.sessionOver = false ∧
    ∀ x t, busyCycle.presentedAt x = some t →
      t.data.length = writeLength t.cmd ∧ t.data.all (elemFits busyCycle.elemBytes) = true := by
  refine ⟨by decide, by decide, fun x t h => ?_⟩
  cases x <;> obtain rfl := Option.some.inj h <;> decide
theorem witness_DataLengthRefused :
    (one ringA .P 0x0100000000000002#64 [1]).presentedAt .P = some ⟨0x0100000000000002#64, [1]⟩ ∧
    [1#64].length ≠ writeLength 0x0100000000000002#64 ∧ fieldOp 0x0100000000000002#64 = 0x01#8 ∧
    fieldOp 0x0300000000000000#64 = 0x03#8 := by decide
theorem witness_NoStep :
    (State.resetWith { cap := 0, elemBytes := 1, elemKind := 0 }).params.legal = false ∧ ringA.params.legal = true ∧
    ringA.inP = [] ∧ ringA.inC = [] ∧ ringA.inH = [] := by decide
theorem witness_GrantUnseen :
    openCycle.Inv ∧ (∃ t, step openCycle = .next t ∧ t.spanOpen = true) ∧ openCycle.spanOpen = true ∧
    0 < openCycle.spanLen.toNat := ⟨openCycle_inv, ⟨_, rfl, rfl⟩, by decide, by decide⟩
theorem witness_ConfigConstant : ∃ t, step busyCycle = .next t := busyCycle_next
theorem witness_ReadingsAreFloors :
    openCycle.Inv ∧ openCycle.resets = false ∧ ∃ t, step openCycle = .next t ∧ t.wr = openCycle.wr :=
  ⟨openCycle_inv, by decide, ⟨_, rfl, rfl⟩⟩
/-- A part that ends with the buffer, with `length?` given and with its default, and one that ends past it. -/
theorem witness_DriverPushExpands :
    (1 + 2 ≤ [1#64, 2, 3].length ∧ 2 < 2 ^ 32 ∧ ∃ t, driverPush [1, 2, 3] (some 2) (some 1) = some t) ∧
    (3 + ([1#64, 2, 3].length - 3) ≤ [1#64, 2, 3].length ∧ ∃ t, driverPush [1, 2, 3] none (some 3) = some t) ∧
    ¬ 1 + 3 ≤ [1#64, 2, 3].length :=
  ⟨⟨by decide, by decide, _, rfl⟩, ⟨by decide, _, rfl⟩, by decide⟩

end Sys2Proof.Tests
end

section
/-! PROOF. Construction (70_reset_and_hazards.md R140, R141): when it answers and with what, and the address range that legal
parameters leave. -/

namespace Sys2Proof.Machine

/-- Construction answers exactly when it names no error, and then with the power-on state. -/
theorem construct_eq_ok_iff (p : Params) (seg : Option Nat) (s : State) :
    construct p seg = .ok s ↔ constructionError p seg = none ∧ s = State.resetWith p := by
  unfold construct
  cases constructionError p seg with
  | none => simp [eq_comm]
  | some e => simp

/-- Without a given segment length, legal parameters are all that construction asks for. -/
theorem construct_none_eq_ok_iff (p : Params) (s : State) :
    construct p none = .ok s ↔ p.legal = true ∧ s = State.resetWith p := by
  simp [construct_eq_ok_iff, constructionError_eq_none]

/-- The segment of a legal block has at most `2^32` bytes (00_scope.md R7). -/
theorem State.segBytes_le {s : State} (h : s.params.legal = true) : s.segBytes ≤ 2 ^ 32 := by
  obtain ⟨-, -, -, -, hseg⟩ := (Params.legal_iff _).mp h
  exact hseg

/-- A legal block has fewer than `2^32` slots: each takes at least one byte, after the eight of the cursors. -/
theorem State.slotCount_lt {s : State} (h : s.params.legal = true) : s.slotCount < 2 ^ 32 := by
  have hslots : s.slotCount ≤ s.slotCount * s.elemBytes := Nat.le_mul_of_pos_right _ (State.elemBytes_pos h)
  have hseg : 8 + s.slotCount * s.elemBytes ≤ 2 ^ 32 := State.segBytes_le h
  omega

/-- Settles O3: construction answers on the legal parameters only, and its state holds them, so that the bounds of a legal
block apply to it. -/
theorem legalParameters : Obligations.LegalParameters := by
  intro p
  constructor
  · simp only [construct_none_eq_ok_iff, exists_and_left, exists_eq, and_true]
    exact Params.legal_iff p
  · intro s hs
    obtain ⟨hp, rfl⟩ := (construct_none_eq_ok_iff p s).mp hs
    have hparams := State.params_resetWith hp
    have hlegal : (State.resetWith p).params.legal = true := by rwa [hparams]
    exact ⟨congrArg Params.cap hparams, congrArg Params.elemBytes hparams, State.slotCount_lt hlegal,
      fun a ha => ha.trans_le (State.segBytes_le hlegal)⟩

end Sys2Proof.Machine
end

section
/-! PROOF. What every step keeps (10_state.md R28, R30, R31): the configuration registers, and the invariant of the block, for
the cycle of a legal `RESET` and for any other. -/

namespace Sys2Proof.Machine

/-- After the cycle of a legal `RESET` the block is in its reset state (20_memory.md R52, 60_exceptions.md R126). -/
theorem resetState_sameBlock_of_step {s t : State} (h : step s = .next t) (hr : s.resets = true) :
    s.resetState.sameBlock t := by
  obtain ⟨-, rfl⟩ := step_next h
  obtain ⟨d, hd⟩ := portResult_reset hr
  rw [cycleResult, if_pos hr, hd]
  exact ⟨rfl, rfl, rfl, ⟨rfl, rfl⟩, ⟨rfl, rfl, rfl⟩, rfl, rfl, rfl⟩

/-- Settles O43: `RESET` keeps the configuration registers, and no port's update set has them. -/
theorem configConstant : Obligations.ConfigConstant := by
  intro s t h
  cases hr : s.resets with
  | true =>
    obtain ⟨-, -, -, -, -, hcfg⟩ := resetState_sameBlock_of_step h hr
    exact hcfg
  | false =>
    have e := cycleEffect_of_step h hr
    exact ⟨e.cfgCap, e.cfgElemBytes, e.cfgElemKind⟩

/-- The invariant speaks of the block's own state only. -/
theorem State.Inv.of_sameBlock {s t : State} (hi : s.Inv) (h : s.sameBlock t) : t.Inv := by
  cases t
  obtain ⟨rfl, rfl, rfl, ⟨rfl, rfl⟩, ⟨rfl, rfl, rfl⟩, rfl, rfl, rfl⟩ := h
  exact ⟨hi.legal, hi.wr_lt, hi.rd_lt, hi.closed, hi.grant_free, hi.mem_wf, hi.mem_range, hi.whole_slots, hi.errP_ok,
    hi.errC_ok, hi.errH_ok⟩

/-- A cleared error register is one of 60_exceptions.md R125. -/
theorem errInv_zero : errInv 0#5 := by decide

/-- The reset state of a legal block meets the invariant (70_reset_and_hazards.md R142). -/
theorem State.resetState_inv {s : State} (h : s.params.legal = true) : s.resetState.Inv where
  legal := h
  wr_lt := s.slotCount_pos
  rd_lt := s.slotCount_pos
  closed _ := rfl
  grant_free := Nat.zero_le _
  mem_wf := s.resetState_mem_wf
  mem_range := by simp
  whole_slots i _ k _ := by
    rw [State.slot_of_mem_nil (State.elemBytes_pos (s := s.resetState) h) rfl]
    rfl
  errP_ok := errInv_zero
  errC_ok := errInv_zero
  errH_ok := errInv_zero

/-- What a producer command leaves in memory: what was there, with elements of the block's width written over some slots. -/
theorem ProducerEffect.exists_mem_eq {s t : State} (e : ProducerEffect s t) :
    ∃ (j : Nat) (vs : List Elem), vs.all (elemFits s.elemBytes) = true ∧
      t.mem = Memory.writeElems s.elemBytes s.slotCount s.wr.toNat s.mem j vs := by
  cases e with
  | quiet hw hm => exact ⟨0, [], rfl, hm⟩
  | pushed vs hc hk hv hw hm => exact ⟨0, vs, hv, hm⟩
  | granted g hc hg hw hm => exact ⟨0, [], rfl, hm⟩
  | wrote j v hc hj hv hw hm => exact ⟨j, [v], by simpa using hv, hm⟩
  | committed hc hw hm => exact ⟨0, [], rfl, hm⟩

/-- A producer command leaves an error register of 60_exceptions.md R125. -/
theorem ProducerEffect.errP_ok {s t : State} (e : ProducerEffect s t) (h : errInv s.errP) : errInv t.errP := by
  cases e with
  | quiet hw hm ho hl he => exact errInv_of_effect h he
  | pushed vs hc hk hv hw hm ho hl he => exact errInv_of_effect h (.inl he)
  | granted g hc hg hw hm ho hl he => exact errInv_of_effect h (.inl he)
  | wrote j v hc hj hv hw hm ho hl he => exact errInv_of_effect h (.inl he)
  | committed hc hw hm ho hl he => exact errInv_of_effect h (.inl he)

/-- A consumer command leaves an error register of 60_exceptions.md R125. -/
theorem ConsumerEffect.errC_ok {s t : State} (e : ConsumerEffect s t) (h : errInv s.errC) : errInv t.errC := by
  cases e with
  | quiet hr he => exact errInv_of_effect h he
  | popped k hk hr he => exact errInv_of_effect h (.inl he)

/-- A closed window has no grant, whatever the producer's command (10_state.md R28). -/
theorem ProducerEffect.closed {s t : State} (e : ProducerEffect s t) (h : s.spanOpen = false → s.spanLen = 0#32)
    (ht : t.spanOpen = false) : t.spanLen = 0#32 := by
  cases e with
  | quiet hw hm ho hl => rw [hl, h (ho ▸ ht)]
  | pushed vs hc hk hv hw hm ho hl => rw [hl, h hc]
  | granted g hc hg hw hm ho => simp [ho] at ht
  | wrote j v hc hj hv hw hm ho => simp [ho, hc] at ht
  | committed hc hw hm ho hl => exact hl

/-- In a cycle that does not move the write cursor the free space does not shrink: only the consumer moves, and it frees slots
(42_status.md R108). -/
theorem CycleEffect.availableWrite_le {s t : State} (hi : s.Inv) (e : CycleEffect s t) (hw : t.wr = s.wr) :
    s.availableWrite ≤ t.availableWrite := by
  obtain ⟨-, -, p, k, hp, -, hadv, -, hread⟩ := e.cursors hi
  have hp0 : p = 0 := eq_zero_of_advance_eq hi.wr_lt (hp.trans s.availableWrite_le) (hadv.symm.trans hw)
  rw [State.availableWrite, State.availableWrite, e.cap_eq]
  omega

/-- The grant stays inside the free slots: a new grant is taken from them, an open one is kept while the write cursor stands,
and after a `PUSH` or a commit there is none (41_span.md R93). -/
theorem CycleEffect.grant_free {s t : State} (hi : s.Inv) (e : CycleEffect s t) : t.spanLen.toNat ≤ t.availableWrite := by
  have none_left : t.spanLen = 0#32 → t.spanLen.toNat ≤ t.availableWrite := fun h => by simp [h]
  have kept : t.wr = s.wr → t.spanLen = s.spanLen → t.spanLen.toNat ≤ t.availableWrite := fun hw hl => by
    rw [hl]; exact hi.grant_free.trans (e.availableWrite_le hi hw)
  cases e.producer with
  | quiet hw hm ho hl => exact kept hw hl
  | pushed vs hc hk hv hw hm ho hl => exact none_left (hl.trans (hi.closed hc))
  | granted g hc hg hw hm ho hl =>
    rw [hl, toNat_ofNat_of_le_cap (hg.trans s.availableWrite_le)]
    exact hg.trans (e.availableWrite_le hi hw)
  | wrote j v hc hj hv hw hm ho hl => exact kept hw hl
  | committed hc hw hm ho hl => exact none_left hl

theorem CycleEffect.params_eq {s t : State} (e : CycleEffect s t) : t.params = s.params := by
  simp only [State.params, e.cfgCap, e.cfgElemBytes, e.cfgElemKind]

theorem CycleEffect.segBytes_eq {s t : State} (e : CycleEffect s t) : t.segBytes = s.segBytes := by
  simp only [State.segBytes, e.elemBytes_eq, e.slotCount_eq]

/-- After a cycle every slot is set as a whole or not at all, because whole slots are written (20_memory.md R41). -/
theorem CycleEffect.whole_slots {s t : State} (hi : s.Inv) (e : CycleEffect s t) :
    ∀ i < t.slotCount, ∀ k < t.elemBytes,
      (Memory.read t.mem (slotAddr t.elemBytes i + k)).isSome = (t.slot i).isSome := by
  obtain ⟨j, vs, hv, hm⟩ := e.producer.exists_mem_eq
  unfold State.slot
  rw [e.slotCount_eq, e.elemBytes_eq, hm]
  exact Memory.writeElems_whole_slots hv hi.whole_slots

/-- A cycle without a legal `RESET` keeps the invariant. -/
theorem CycleEffect.inv {s t : State} (hi : s.Inv) (e : CycleEffect s t) : t.Inv := by
  obtain ⟨hwr, hrd, -⟩ := e.cursors hi
  obtain ⟨j, vs, -, hm⟩ := e.producer.exists_mem_eq
  exact {
    legal := by rw [e.params_eq]; exact hi.legal
    wr_lt := by rw [e.slotCount_eq]; exact hwr
    rd_lt := by rw [e.slotCount_eq]; exact hrd
    closed := e.producer.closed hi.closed
    grant_free := e.grant_free hi
    mem_wf := by rw [hm]; exact Memory.writeElems_wf hi.mem_wf ..
    mem_range := by rw [e.segBytes_eq]; exact e.mem_range hi
    whole_slots := e.whole_slots hi
    errP_ok := e.producer.errP_ok hi.errP_ok
    errC_ok := e.consumer.errC_ok hi.errC_ok
    errH_ok := errInv_of_effect hi.errH_ok e.host }

/-- Settles O6: a legal `RESET` leaves the reset state, which meets the invariant, and any other cycle keeps it. -/
theorem stepKeepsInv : Obligations.StepKeepsInv := by
  intro s t hi h
  cases hr : s.resets with
  | true => exact (State.resetState_inv hi.legal).of_sameBlock (resetState_sameBlock_of_step h hr)
  | false => exact (cycleEffect_of_step h hr).inv hi

end Sys2Proof.Machine
end

section
/-! PROOF. The data and the free space (10_state.md R24 to R26), where the free slots lie against the filled ones, and the
slots of an open window among them (10_state.md R29, 41_span.md R93). -/

namespace Sys2Proof.Machine

/-- The data and the free space add up to the capacity (10_state.md R26). -/
theorem State.availableRead_add_availableWrite (s : State) : s.availableRead + s.availableWrite = s.cap :=
  Nat.add_sub_cancel' s.availableRead_le

/-- The write cursor is `availableRead` slots past the read cursor (10_state.md R25). -/
theorem State.idx_rd_availableRead {s : State} (hi : s.Inv) :
    idx s.slotCount s.rd.toNat s.availableRead = s.wr.toNat := by
  have hw := hi.wr_lt
  have hr := hi.rd_lt
  rw [idx_eq hr s.availableRead_lt, s.availableRead_eq hw hr]
  split <;> split <;> omega

/-- The ring is empty when there is no data (10_state.md R24, R26). -/
theorem State.isEmpty_iff {s : State} (hi : s.Inv) : s.isEmpty = true ↔ s.availableRead = 0 := by
  have hw := hi.wr_lt
  have hr := hi.rd_lt
  rw [State.isEmpty, beq_iff_eq, BitVec.toNat_eq, s.availableRead_eq hw hr]
  split <;> omega

/-- The ring is full when there is no free space (10_state.md R24, R26). -/
theorem State.isFull_iff {s : State} (hi : s.Inv) : s.isFull = true ↔ s.availableWrite = 0 := by
  have hw := hi.wr_lt
  have hr := hi.rd_lt
  have hN := s.slotCount_eq
  rw [State.isFull, beq_iff_eq, mod_of_lt_two_mul (by omega), State.availableWrite, s.availableRead_eq hw hr]
  split <;> split <;> omega

/-- Settles O30: empty and full are the zeros of two summands of the capacity, which is not 0. -/
theorem availableSum : Obligations.AvailableSum := by
  intro s hi
  have hsum := s.availableRead_add_availableWrite
  have hcap : 1 ≤ s.cap := ((Params.legal_iff _).mp hi.legal).1
  refine ⟨hsum, State.isEmpty_iff hi, State.isFull_iff hi, ?_⟩
  rw [State.isEmpty_iff hi, State.isFull_iff hi]
  omega

/-- The slots from the write cursor on are those after the filled ones from the read cursor on (20_memory.md R55). -/
theorem State.idx_wr {s : State} (hi : s.Inv) (j : Nat) :
    idx s.slotCount s.wr.toNat j = idx s.slotCount s.rd.toNat (s.availableRead + j) := by
  rw [← State.idx_rd_availableRead hi]
  simp only [idx, Nat.mod_add_mod, Nat.add_assoc]

/-- No free slot is among the filled ones (20_memory.md R55). -/
theorem State.filled_ne_free {s : State} (hi : s.Inv) {m j : Nat} (hm : m < s.availableRead) (hj : j < s.availableWrite) :
    idx s.slotCount s.rd.toNat m ≠ idx s.slotCount s.wr.toNat j := by
  have hsum := s.availableRead_add_availableWrite
  have hN := s.slotCount_eq
  rw [State.idx_wr hi]
  intro h
  have := idx_injective (by omega) (by omega) h
  omega

/-- No granted slot is among the filled ones (10_state.md R29, 41_span.md R93). -/
theorem State.filled_ne_granted {s : State} (hi : s.Inv) {m j : Nat} (hm : m < s.availableRead) (hj : j < s.spanLen.toNat) :
    idx s.slotCount s.rd.toNat m ≠ idx s.slotCount s.wr.toNat j :=
  State.filled_ne_free hi hm (hj.trans_le hi.grant_free)

/-- A window that a producer command leaves open keeps its place and its grant: `PUSH` and `WSPAN` need a closed one and
`SPAN_COMMIT` closes it (41_span.md R93). -/
theorem ProducerEffect.window_kept {s t : State} (e : ProducerEffect s t) (hs : s.spanOpen = true) (ht : t.spanOpen = true) :
    t.wr = s.wr ∧ t.spanLen = s.spanLen := by
  cases e with
  | quiet hw hm ho hl => exact ⟨hw, hl⟩
  | pushed vs hc => simp [hs] at hc
  | granted g hc => simp [hs] at hc
  | wrote j v hc hj hv hw hm ho hl => exact ⟨hw, hl⟩
  | committed hc hw hm ho => simp [ho] at ht

/-- A step that leaves a window open had no legal `RESET` (70_reset_and_hazards.md R142). -/
theorem resets_eq_false_of_spanOpen {s t : State} (h : step s = .next t) (ht : t.spanOpen = true) : s.resets = false := by
  cases hr : s.resets with
  | false => rfl
  | true =>
    obtain ⟨-, -, -, ⟨hopen, -⟩, -⟩ := resetState_sameBlock_of_step h hr
    simp [hopen] at ht

/-- Settles O42: the window keeps its place, and the invariant, which the step keeps, puts the grant among the free slots
before and after. -/
theorem grantUnseen : Obligations.GrantUnseen := by
  intro s t hi h hs ht
  have e := cycleEffect_of_step h (resets_eq_false_of_spanOpen h ht)
  obtain ⟨hw, hl⟩ := e.producer.window_kept hs ht
  refine ⟨hw, hl, fun j hj => ⟨fun m hm => State.filled_ne_granted hi hm hj, fun m hm => ?_⟩⟩
  rw [← hw, ← e.slotCount_eq]
  exact State.filled_ne_granted (stepKeepsInv s t hi h) hm (hl ▸ hj)

end Sys2Proof.Machine
end

section
/-! PROOF. The ring as a queue (20_memory.md R48, R53, R55, R56): the data and the cursors through a cycle, what the ring holds
after one cycle, and over any number of them. -/

namespace Sys2Proof.Machine

/-- Logical offsets add up (20_memory.md R45). -/
theorem idx_idx (n base j k : Nat) : idx n (idx n base j) k = idx n base (j + k) := by
  simp only [idx, Nat.mod_add_mod, Nat.add_assoc]

/-- A cursor moves to the slot at the logical offset it moves by (20_memory.md R45, R47). -/
theorem State.toNat_advance (s : State) (x : Word) (k : Nat) :
    (advance s.slotCount x k).toNat = idx s.slotCount x.toNat k :=
  advance_toNat s.slotCount_pos s.slotCount_le x k

/-- Advances by at most `CAP` that lead to the same place are the same. -/
theorem State.advance_injective {s : State} {x : Word} {k k' : Nat} (hk : k ≤ s.cap) (hk' : k' ≤ s.cap)
    (h : advance s.slotCount x k = advance s.slotCount x k') : k = k' := by
  have h' := congrArg BitVec.toNat h
  rw [s.toNat_advance, s.toNat_advance] at h'
  exact idx_injective (Nat.lt_succ_of_le hk) (Nat.lt_succ_of_le hk') h'

/-- A port presents the command `i`: its transaction's word decodes to it. -/
theorem State.commandAt_eq_some {s : State} {x : Port} {i : Instr} :
    s.commandAt x = some i ↔ ∃ t, s.presentedAt x = some t ∧ decode t.cmd = .ok i := by
  unfold State.commandAt
  cases s.presentedAt x with
  | none => simp
  | some t => cases hd : decode t.cmd <;> simp [hd, Except.toOption]

theorem State.length_contents (s : State) : s.contents.length = s.availableRead := by
  simp [State.contents]

/-- The elements the ring holds, by logical offset from the read cursor (20_memory.md R48). -/
theorem State.getElem?_contents {s : State} {j : Nat} (hj : j < s.availableRead) :
    s.contents[j]? = some (s.slot (idx s.slotCount s.rd.toNat j)) := by
  rw [State.contents, List.getElem?_map, List.getElem?_range hj, Option.map_some]

/-- A `POP` never delivers more than the ring holds (40_transfer.md R81). -/
theorem State.popCount_le (s : State) : s.popCount ≤ s.availableRead := by
  unfold State.popCount
  split
  · exact Nat.min_le_right ..
  · exact Nat.zero_le _

/-- What a cycle does to the ring: the read cursor past what was delivered, and what port `P` leaves. -/
structure QueueEffect (s t : State) : Prop where
  slotCount : t.slotCount = s.slotCount
  elemBytes : t.elemBytes = s.elemBytes
  rd : t.rd = advance s.slotCount s.rd s.popCount
  publish : PublishEffect s t
  availableRead : t.availableRead = s.availableRead - s.popCount + s.published.length

/-- Every cycle without a legal `RESET` moves each cursor past what its own side moved (20_memory.md R52, R55). -/
theorem queueEffect_of_step {s t : State} (hi : s.Inv) (h : step s = .next t) (hr : s.resets = false) :
    QueueEffect s t := by
  have e := cycleEffect_of_step h hr
  obtain ⟨⟨-, -, hb⟩, rfl⟩ := step_next h
  obtain ⟨-, -, p, k, hp, hk, hwr, hrd, hread⟩ := e.cursors hi
  rw [cycleResult, hr] at e hwr hrd hread ⊢
  obtain ⟨hw, hl, hnew, hold⟩ := publishEffect_portResult hi (hb .P)
  have hpub : p = s.published.length :=
    State.advance_injective (hp.trans s.availableWrite_le) (hl.trans s.availableWrite_le) (hwr.symm.trans hw)
  have hpop : k = s.popCount :=
    State.advance_injective (hk.trans s.availableRead_le) (s.popCount_le.trans s.availableRead_le)
      (hrd.symm.trans (portResult_rd hi))
  exact ⟨e.slotCount_eq, e.elemBytes_eq, portResult_rd hi, ⟨hw, hl, hnew, hold⟩, hpub ▸ hpop ▸ hread⟩

namespace QueueEffect

variable {s t : State}

/-- A logical offset from the read cursor, before and after what was delivered. -/
theorem idx_rd (e : QueueEffect s t) (j : Nat) :
    idx t.slotCount t.rd.toNat j = idx s.slotCount s.rd.toNat (s.popCount + j) := by
  rw [e.slotCount, e.rd, s.toNat_advance, idx_idx]

/-- A filled slot keeps its element: the producer writes free slots only (20_memory.md R53). -/
theorem slot_filled (e : QueueEffect s t) (hi : s.Inv) {m : Nat} (hm : m < s.availableRead) :
    t.slot (idx s.slotCount s.rd.toNat m) = s.slot (idx s.slotCount s.rd.toNat m) := by
  rw [State.slot, e.elemBytes]
  exact e.publish.old _ fun j hj => (State.filled_ne_free hi hm hj).symm

/-- The slots past the filled ones hold what the cycle published. -/
theorem slot_published (e : QueueEffect s t) (hi : s.Inv) {j : Nat} (hj : j < s.published.length) :
    some (t.slot (idx s.slotCount s.rd.toNat (s.availableRead + j))) = s.published[j]? := by
  rw [State.slot, e.elemBytes, ← State.idx_wr hi]
  exact e.publish.new j hj

/-- What the ring holds after a cycle: what it held without what was delivered, then what was published (20_memory.md R56). -/
theorem contents (e : QueueEffect s t) (hi : s.Inv) : t.contents = s.contents.drop s.popCount ++ s.published := by
  have hpop := s.popCount_le
  have hdrop : (s.contents.drop s.popCount).length = s.availableRead - s.popCount := by
    rw [List.length_drop, s.length_contents]
  refine List.ext_getElem? fun j => ?_
  by_cases hj : j < t.availableRead
  · rw [State.getElem?_contents hj, e.idx_rd]
    rw [e.availableRead] at hj
    by_cases hold : j < s.availableRead - s.popCount
    · have hm : s.popCount + j < s.availableRead := by omega
      rw [List.getElem?_append_left (by omega), List.getElem?_drop, State.getElem?_contents hm, e.slot_filled hi hm]
    · rw [List.getElem?_append_right (by omega), hdrop, ← e.slot_published hi (by omega)]
      congr 3
      omega
  · have hlen : t.contents.length = (s.contents.drop s.popCount ++ s.published).length := by
      rw [t.length_contents, e.availableRead, List.length_append, hdrop]
    rw [← t.length_contents] at hj
    rw [List.getElem?_eq_none (by omega), List.getElem?_eq_none (by omega)]

end QueueEffect

/-- `POP` reads a slot that is set as its value (20_memory.md R43). -/
theorem State.slotValue_of_slot {s : State} {i : Nat} {v : Elem} (h : s.slot i = some v) : s.slotValue i = v := by
  rw [State.slotValue, h]

theorem State.length_readElems (s : State) (k : Nat) : (s.readElems k).length = k := by
  simp [State.readElems]

/-- An element of the ring that is set is read at its logical offset. -/
theorem State.getElem?_readElems {s : State} {j k : Nat} {v : Elem} (hj : j < k)
    (hv : s.slot (idx s.slotCount s.rd.toNat j) = some v) : (s.readElems k)[j]? = some v := by
  rw [State.readElems, List.getElem?_map, List.getElem?_range hj, Option.map_some, State.slotValue_of_slot hv]

/-- Settles O35: the queue after a cycle from what the cycle does to the ring, and the data of a `POP` from what port `C`
leaves. -/
theorem fifoCycle : Obligations.FifoCycle := by
  intro s t hi h hr
  refine ⟨(queueEffect_of_step hi h hr).contents hi, fun len hc => ?_⟩
  obtain ⟨u, hu, hd⟩ := State.commandAt_eq_some.mp hc
  have hpop : s.popCount = min len.toNat s.availableRead := by rw [State.popCount, hc]
  refine ⟨(s.atPort .C u.data).readElems s.popCount, ?_, State.length_readElems .., fun j v hj hv => ?_⟩
  · obtain ⟨-, rfl⟩ := step_next h
    rw [cycleResult, hr, hpop]
    exact congrArg State.rspC (portResult_legal hu hd)
  · rw [State.getElem?_contents (hj.trans_le s.popCount_le)] at hv
    exact State.getElem?_readElems hj (Option.some.inj hv)

/-- A run of `k + 1` cycles is a cycle and a run of `k`. -/
theorem step_of_run_succ {M : Host.Core} {k : Nat} {s t : M.State} (h : M.run (k + 1) s = .next t) :
    ∃ u, M.step s = .next u ∧ M.run k u = .next t := by
  rw [Host.Core.run] at h
  split at h
  · next u hu => exact ⟨u, hu, h⟩
  · cases h
  · cases h

theorem publishedIn_succ {k : Nat} {s u : State} (h : step s = .next u) :
    publishedIn (k + 1) s = s.published ++ publishedIn k u := by
  simp only [publishedIn, h]

theorem deliveredIn_succ {k : Nat} {s u : State} (h : step s = .next u) :
    deliveredIn (k + 1) s = s.contents.take s.popCount ++ deliveredIn k u := by
  simp only [deliveredIn, h]

theorem resetFree_succ {k : Nat} {s u : State} (h : step s = .next u) :
    resetFree (k + 1) s = true ↔ s.resets = false ∧ resetFree k u = true := by
  simp [resetFree, h]

/-- Settles O36, by induction on the number of cycles: the invariant is kept by each, and each keeps the queue. -/
theorem fifoRun : Obligations.FifoRun := by
  intro k
  induction k with
  | zero =>
    intro s t _ _ h
    obtain rfl : s = t := Host.Outcome.next.inj h
    simp [publishedIn, deliveredIn]
  | succ k ih =>
    intro s t hi hf h
    obtain ⟨u, hs, hrun⟩ := step_of_run_succ (M := core) h
    obtain ⟨hr, hfree⟩ := (resetFree_succ hs).mp hf
    obtain ⟨hqueue, -⟩ := fifoCycle s u hi hs hr
    have hrest := ih u t (stepKeepsInv s u hi hs) hfree hrun
    rw [publishedIn_succ hs, deliveredIn_succ hs]
    calc s.contents ++ (s.published ++ publishedIn k u)
        = s.contents.take s.popCount ++ (u.contents ++ publishedIn k u) := by
          rw [hqueue, ← List.append_assoc, ← List.append_assoc, ← List.append_assoc, List.take_append_drop]
      _ = (s.contents.take s.popCount ++ deliveredIn k u) ++ t.contents := by rw [hrest, List.append_assoc]

end Sys2Proof.Machine
end

section
/-! PROOF. The storage (20_memory.md R41 to R43, R45, R46, R54, R55): the bytes of the segment, the two spans of a transfer, the
partition of the slots, and how far the cursors a side reads can be behind. -/

namespace Sys2Proof.Machine

/-- Settles O23: a transfer wraps at most once, at the end of the first span. -/
theorem splitCovers : Obligations.SplitCovers := by
  intro n b k hb hk
  unfold splitLen1
  refine ⟨Nat.min_le_right .., by omega, fun j hj => ?_, by omega, fun h => ?_⟩
  · rw [idx_eq hb (hj.trans hk)]
    split <;> split <;> omega
  · rw [idx, h, Nat.mod_self]

/-- A byte of the cursors in the segment (20_memory.md R40, R42). -/
theorem State.segByte_cursor (s : State) {k : Nat} (hk : k < 4) :
    s.segByte k = byteOf s.wr k ∧ s.segByte (4 + k) = byteOf s.rd k := by
  constructor
  · rw [State.segByte, if_pos hk]
  · rw [State.segByte, if_neg (by omega), if_pos (by omega), Nat.add_sub_cancel_left]

/-- A byte of a slot in the segment (20_memory.md R41). -/
theorem State.segByte_slot (s : State) {i k : Nat} (hk : k < s.elemBytes) :
    s.segByte (slotAddr s.elemBytes i + k) =
      (s.slot i).elim (s.drawByte (slotAddr s.elemBytes i + k)) (fun v => byteOf v k) := by
  have hoff : slotAddr s.elemBytes i + k - 8 = k + s.elemBytes * i := by
    rw [slotAddr, Nat.mul_comm]
    omega
  have hpos : 8 ≤ slotAddr s.elemBytes i := Nat.le_add_right ..
  have hE : 0 < s.elemBytes := by omega
  rw [State.segByte, if_neg (by omega), if_neg (by omega), hoff, Nat.add_mul_div_left _ _ hE, Nat.div_eq_of_lt hk, Nat.zero_add,
    Nat.add_mul_mod_self_left, Nat.mod_eq_of_lt hk]
  cases s.slot i <;> rfl

/-- Settles O26, byte by byte from what the segment holds at a cursor and at a slot. -/
theorem segmentBytes : Obligations.SegmentBytes := by
  intro s _
  refine ⟨fun k hk => s.segByte_cursor hk, fun i k hk => ⟨fun v hv => ?_, fun hv => ?_⟩⟩
  all_goals
    have h := s.segByte_slot (i := i) hk
    rw [hv] at h
    exact h

/-- Every slot is at a logical offset below `N` from every base (20_memory.md R45). -/
theorem exists_idx_eq {n base i : Nat} (hb : base < n) (hi : i < n) : ∃ m < n, idx n base m = i := by
  by_cases h : base ≤ i
  · exact ⟨i - base, by omega, by rw [idx_eq hb (by omega)]; split <;> omega⟩
  · exact ⟨i + n - base, by omega, by rw [idx_eq hb (by omega)]; split <;> omega⟩

/-- Settles O31: from the read cursor on come the filled slots, then the free ones, then the reserved one, at distinct offsets. -/
theorem slotPartition : Obligations.SlotPartition := by
  intro s hi i hlt
  have hsum := s.availableRead_add_availableWrite
  have hN := s.slotCount_eq
  simp only [State.idx_wr hi]
  refine ⟨?_, ?_, ?_, ?_⟩
  · obtain ⟨m, hm, rfl⟩ := exists_idx_eq hi.rd_lt hlt
    by_cases hfilled : m < s.availableRead
    · exact .inl ⟨m, hfilled, rfl⟩
    · by_cases hfree : m < s.cap
      · refine .inr (.inl ⟨m - s.availableRead, by omega, ?_⟩)
        rw [Nat.add_sub_cancel' (by omega)]
      · refine .inr (.inr ?_)
        rw [show s.slotCount - 1 = m by omega]
  · rintro ⟨⟨m, hm, hfilled⟩, j, hj, hfree⟩
    have := idx_injective (by omega) (by omega) (hfilled.trans hfree.symm)
    omega
  · rintro ⟨⟨m, hm, hfilled⟩, hreserved⟩
    have := idx_injective (by omega) (by omega) (hfilled.trans hreserved.symm)
    omega
  · rintro ⟨⟨j, hj, hfree⟩, hreserved⟩
    have := idx_injective (by omega) (by omega) (hfree.trans hreserved.symm)
    omega

/-- The distance to the slot at a logical offset is that offset (10_state.md R25). -/
theorem distance_idx {n r d : Nat} (hr : r < n) (hd : d < n) : (idx n r d + n - r) % n = d := by
  have hn : 0 < n := by omega
  rw [distance_eq (idx_lt hn r d) hr, idx_eq hr hd]
  split <;> split <;> omega

/-- Settles O32: a `POP` in the cycle only brings the read cursor nearer to the write cursor, and what is published in it only
takes the write cursor farther from the read cursor. -/
theorem stalenessBound : Obligations.StalenessBound := by
  intro s t hi h hr
  obtain ⟨-, hrd, p, k, hp, hk, hwr', hrd', -⟩ := (cycleEffect_of_step h hr).cursors hi
  have hsum := s.availableRead_add_availableWrite
  have hN := s.slotCount_eq
  constructor
  · have hdata : (s.wr.toNat + s.slotCount - t.rd.toNat) % s.slotCount = s.availableRead - k := by
      have hplace : s.wr.toNat = idx s.slotCount t.rd.toNat (s.availableRead - k) := by
        rw [hrd', s.toNat_advance, idx_idx, Nat.add_sub_cancel' hk, State.idx_rd_availableRead hi]
      rw [hplace]
      exact distance_idx hrd (by omega)
    omega
  · have hplace : t.wr.toNat = idx s.slotCount s.rd.toNat (s.availableRead + p) := by
      rw [hwr', s.toNat_advance, State.idx_wr hi]
    rw [hplace, distance_idx hi.rd_lt (by omega)]
    omega

end Sys2Proof.Machine
end

section
/-! PROOF. What a command on each port can change (20_memory.md R51, R55): a command that is not refused fails with an error
code, or makes its own update of the block and answers `OK`. -/

namespace Sys2Proof.Machine

/-- What a command that succeeds changes in the block; the queries, `NOP` and `SEG_RD` change nothing. -/
def blockUpdate : Instr → State → State
  | .push len, s =>
    (s.writeElems 0 (s.wdata.take (min len.toNat s.availableWrite))).advanceWr (min len.toNat s.availableWrite)
  | .wspan amount, s => s.setWindow true (BitVec.ofNat 32 (min amount.toNat s.availableWrite))
  | .spanWr j, s => s.writeElems j.toNat s.wdata
  | .spanCommit, s => (s.advanceWr s.spanLen.toNat).setWindow false 0#32
  | .pop len, s => s.advanceRd (min len.toNat s.availableRead)
  | .reset, s => s.resetState
  | _, s => s

/-- The `DATA` of a command that succeeds: only `POP` delivers elements. -/
def okData : Instr → State → List Elem
  | .pop len, s => s.readElems (min len.toNat s.availableRead)
  | _, _ => []

/-- The `DESC` of a command that succeeds: only `WSPAN` describes spans. -/
def okDesc : Instr → State → Desc
  | .wspan amount, s => splitDesc s.slotCount s.wr.toNat (min amount.toNat s.availableWrite)
  | _, _ => zeroDesc

/-- How a command can end (60_exceptions.md R123): with an error's code in `1..7` raised, or, on a port that may issue it, with
its update of the block and the answer `OK`. -/
inductive CommandEnds (i : Instr) (s : State) : State → Prop where
  | failed (c : Status) (h1 : 1 ≤ c.code.toNat) (h7 : c.code.toNat ≤ 7) : CommandEnds i s (s.raiseErr c)
  | succeeded (hp : legalPort i s.port = true) (count : Word) :
      CommandEnds i s ((blockUpdate i s).respond count (okData i s) (okDesc i s))

/-- A command's own rule, on a port that may issue it. -/
theorem commandEnds_execBody {i : Instr} {s : State} (hp : legalPort i s.port = true) :
    CommandEnds i s (execBody i s) := by
  cases i with
  | push len =>
    rw [execBody]
    split
    · exact .failed .spanOpen (by decide) (by decide)
    · exact .succeeded hp _
  | wspan amount =>
    rw [execBody]
    split
    · exact .failed .spanOpen (by decide) (by decide)
    · exact .succeeded hp _
  | spanWr j =>
    rw [execBody]
    split
    · exact .failed .noSpan (by decide) (by decide)
    · split
      · exact .failed .spanRange (by decide) (by decide)
      · exact .succeeded hp _
  | spanCommit =>
    rw [execBody]
    split
    · exact .failed .noSpan (by decide) (by decide)
    · exact .succeeded hp _
  | segRd a =>
    rw [execBody]
    split
    · exact .failed .addrAlign (by decide) (by decide)
    · split
      · exact .failed .addrRange (by decide) (by decide)
      · exact .succeeded hp _
  | _ => exact .succeeded hp _

/-- Every command that is not refused fails or succeeds; on a port that may not issue it, it fails. -/
theorem commandEnds_of_exec {i : Instr} {s t : State} (h : exec i s = .next t) : CommandEnds i s t := by
  obtain ⟨-, rfl⟩ := exec_next h
  rw [afterExec]
  split
  · next hp => exact commandEnds_execBody hp
  · exact .failed .wrongPort (by decide) (by decide)

/-- Settles O18: these commands have no update of the block, no data and no descriptor. -/
theorem readOnlyFrame : Obligations.ReadOnlyFrame := by
  intro s t i r hi h hr hok
  have hread : blockUpdate i s = s ∧ okData i s = [] ∧ okDesc i s = zeroDesc := by
    rcases hi with rfl | rfl | rfl | rfl | rfl | rfl | rfl | rfl | ⟨a, rfl⟩ <;> exact ⟨rfl, rfl, rfl⟩
  obtain ⟨hupd, hdata, hdesc⟩ := hread
  cases commandEnds_of_exec h with
  | failed c h1 h7 =>
    obtain rfl : errorResponse c = r := by simpa using hr
    obtain rfl : c = .ok := hok
    exact absurd h1 (by decide)
  | succeeded hp count =>
    rw [hupd, hdata, hdesc] at hr ⊢
    obtain rfl : (⟨.ok, count, [], zeroDesc⟩ : Response) = r := by simpa using hr
    exact ⟨⟨rfl, rfl, rfl, ⟨rfl, rfl⟩, ⟨rfl, rfl, rfl⟩, rfl, rfl, rfl⟩, ⟨rfl, rfl, rfl, rfl, rfl⟩, rfl, rfl,
      fun y hy => by rw [State.respond_rspOf, if_neg hy.symm]⟩

/-- No update changes the configuration, what the agents still present, the executing port or a response. -/
theorem blockUpdate_frame (i : Instr) (s : State) :
    s.sameConfig (blockUpdate i s) ∧ s.sameInputs (blockUpdate i s) ∧ ∀ y, (blockUpdate i s).rspOf y = s.rspOf y := by
  cases i <;> exact ⟨⟨rfl, rfl, rfl⟩, ⟨rfl, rfl, rfl, rfl, rfl⟩, fun y => by cases y <;> rfl⟩

/-- Only port `H` may issue `RESET` (30_encoding.md R66). -/
theorem ne_reset_of_legalPort {i : Instr} {x : Port} (hp : legalPort i x = true) (hx : x ≠ .H) : i ≠ .reset := by
  rintro rfl
  exact hx (by simpa [legalPort] using hp)

/-- No update but that of `RESET` changes an error register. -/
theorem blockUpdate_sameErrors {i : Instr} (hi : i ≠ .reset) (s : State) : s.sameErrors (blockUpdate i s) := by
  cases i with
  | reset => exact absurd rfl hi
  | _ => exact ⟨rfl, rfl, rfl⟩

/-- Beside `RESET`, only commands of port `C` move the read cursor. -/
theorem blockUpdate_rd {i : Instr} {x : Port} (hp : legalPort i x = true) (hx : x ≠ .C) (hi : i ≠ .reset) (s : State) :
    (blockUpdate i s).rd = s.rd := by
  cases i with
  | pop len => exact absurd (by simpa [legalPort] using hp) hx
  | reset => exact absurd rfl hi
  | _ => rfl

/-- Beside `RESET`, only commands of port `P` move the write cursor, write slots or set the window. -/
theorem blockUpdate_producer {i : Instr} {x : Port} (hp : legalPort i x = true) (hx : x ≠ .P) (hi : i ≠ .reset) (s : State) :
    (blockUpdate i s).wr = s.wr ∧ (blockUpdate i s).mem = s.mem ∧ s.sameWindow (blockUpdate i s) := by
  cases i with
  | push len => exact absurd (by simpa [legalPort] using hp) hx
  | wspan amount => exact absurd (by simpa [legalPort] using hp) hx
  | spanWr j => exact absurd (by simpa [legalPort] using hp) hx
  | spanCommit => exact absurd (by simpa [legalPort] using hp) hx
  | reset => exact absurd rfl hi
  | _ => exact ⟨rfl, rfl, rfl, rfl⟩

/-- Settles O34: a failure changes the executing port's error register, a success what the command's update changes. -/
theorem updateSets : Obligations.UpdateSets := by
  intro s t i h
  cases commandEnds_of_exec h with
  | failed c h1 h7 =>
    refine ⟨⟨rfl, rfl, rfl⟩, ⟨rfl, rfl, rfl, rfl, rfl⟩, fun y hy => ?_, fun hp => ?_, fun hp => ?_, fun hp _ => ?_⟩
    · rw [State.raiseErr_rspOf, if_neg hy.symm]
    all_goals simp [State.sameWindow, hp]
  | succeeded hp count =>
    obtain ⟨hcfg, hin, hrsp⟩ := blockUpdate_frame i s
    refine ⟨hcfg, hin, fun y hy => ?_, fun hx => ?_, fun hx => ?_, fun hx hi => ?_⟩
    · obtain ⟨-, -, -, hport, -⟩ := hin
      rw [State.respond_rspOf, hport, if_neg hy.symm, hrsp]
    all_goals rw [hx] at hp
    · have hi := ne_reset_of_legalPort hp (by decide)
      obtain ⟨-, herr⟩ := blockUpdate_sameErrors hi s
      exact ⟨blockUpdate_rd hp (by decide) hi s, herr⟩
    · have hi := ne_reset_of_legalPort hp (by decide)
      obtain ⟨hwr, hmem, hwindow⟩ := blockUpdate_producer hp (by decide) hi s
      obtain ⟨herrP, -, herrH⟩ := blockUpdate_sameErrors hi s
      exact ⟨hwr, hmem, hwindow, herrP, herrH⟩
    · obtain ⟨hwr, hmem, hwindow⟩ := blockUpdate_producer hp (by decide) hi s
      obtain ⟨herrP, herrC, -⟩ := blockUpdate_sameErrors hi s
      exact ⟨hwr, blockUpdate_rd hp (by decide) hi s, hmem, hwindow, herrP, herrC⟩

end Sys2Proof.Machine
end

section
/-! PROOF. A step from the executions of the commands its ports present (20_memory.md R52, 30_encoding.md R64). -/

namespace Sys2Proof.Machine

/-- While a port presents something the session goes on. -/
theorem State.sessionOver_of_presentedAt {s : State} {x : Port} {t : Transaction} (hx : s.presentedAt x = some t) :
    s.sessionOver = false := by
  cases ho : s.sessionOver with
  | false => rfl
  | true =>
    simp only [State.sessionOver, Bool.and_eq_true, List.isEmpty_iff] at ho
    obtain ⟨⟨hP, hC⟩, hH⟩ := ho
    cases x <;> simp [State.presentedAt, State.inputOf, presented, hP, hC, hH] at hx

/-- Nothing is refused at an idle port. -/
theorem State.boundaryRefusal_of_idle {s : State} {x : Port} (hx : s.presentedAt x = none) : s.boundaryRefusal x = none := by
  rw [State.boundaryRefusal, hx]

section
variable {s u : State} {x : Port} {t : Transaction} {i : Instr}

/-- A command that executes is not refused at the boundary. -/
theorem boundaryRefusal_of_exec (hx : s.presentedAt x = some t) (hd : decode t.cmd = .ok i)
    (he : exec i (s.atPort x t.data) = .next u) : s.boundaryRefusal x = none := by
  obtain ⟨hw, -⟩ := exec_next he
  rw [State.boundaryRefusal, hx]
  simp only [writeLength_of_decode hd]
  exact (dataRefusal_eq_none ..).mpr ((wellFormed_iff ..).mp hw)

/-- What a port leaves is what its command's execution gives. -/
theorem portResult_of_exec (hx : s.presentedAt x = some t) (hd : decode t.cmd = .ok i)
    (he : exec i (s.atPort x t.data) = .next u) : portResult x s = u := by
  obtain ⟨-, rfl⟩ := exec_next he
  exact portResult_legal hx hd

end

/-- A cycle is a reset cycle when port `H` presents the command `RESET`. -/
theorem State.resets_iff (s : State) : s.resets = true ↔ s.commandAt .H = some .reset := by
  unfold State.resets State.commandAt
  cases s.presentedAt .H with
  | none => simp
  | some t =>
    cases hd : decode t.cmd with
    | error e => simp [hd, Except.toOption]
    | ok i => cases i <;> simp [hd, Except.toOption]

/-- Settles O10: nothing is refused, and each port leaves what its command's execution gives. -/
theorem stepRunsDecoded : Obligations.StepRunsDecoded := by
  intro s uP uC uH tP tC tH iP iC iH hl hP hC hH hdP hdC hdH hi heP heC heH
  have hb : ∀ x, s.boundaryRefusal x = none
    | .P => boundaryRefusal_of_exec hP hdP heP
    | .C => boundaryRefusal_of_exec hC hdC heC
    | .H => boundaryRefusal_of_exec hH hdH heH
  have hr : ¬ s.resets = true := by
    rw [s.resets_iff, State.commandAt_eq_some.mpr ⟨tH, hH, hdH⟩]
    exact fun h => hi (Option.some.inj h)
  rw [step_of_boundary hl (State.sessionOver_of_presentedAt hP) hb, cycleResult, if_neg hr, portResult_of_exec hP hdP heP,
    portResult_of_exec hC hdC heC, portResult_of_exec hH hdH heH]

/-- A port's response in a cycle is what its command leaves, but for the aborted ones beside a `RESET`. -/
theorem cycleResult_rspOf {s : State} {x : Port} (h : s.resets = false ∨ x = .H) :
    (cycleResult s).rspOf x = (portResult x s).rspOf x := by
  rw [cycleResult, consume_rspOf]
  split
  · next hr =>
    obtain rfl : x = .H := h.resolve_left (by simp [hr])
    rfl
  · exact merge_rspOf s x

/-- An idle port gets no response, whatever the cycle (30_encoding.md R64). -/
theorem cycleResult_rspOf_idle {s : State} {x : Port} (hx : s.presentedAt x = none) : (cycleResult s).rspOf x = none := by
  by_cases h : s.resets = false ∨ x = .H
  · rw [cycleResult_rspOf h, portResult_idle hx, State.setRsp_rspOf, if_pos rfl]
  · obtain ⟨hr, hH⟩ := not_or.mp h
    rw [cycleResult, consume_rspOf, if_pos (by simpa using hr)]
    cases x with
    | P => simp [State.rspOf, hx, abortedResponse]
    | C => simp [State.rspOf, hx, abortedResponse]
    | H => exact absurd rfl hH

/-- A port that alone presents something in a reset cycle is port `H`. -/
theorem eq_H_of_resets {s : State} {x : Port} (hidle : ∀ y, y ≠ x → s.presentedAt y = none) (hr : s.resets = true) :
    x = .H := by
  obtain ⟨t, ht, -⟩ := State.commandAt_eq_some.mp (s.resets_iff.mp hr)
  by_contra hx
  simp [hidle .H (Ne.symm hx)] at ht

/-- The block after a cycle in which one port alone presents a command is the block that command leaves. -/
theorem sameBlock_cycleResult_of_one_port {s u : State} {x : Port} {t : Transaction} {i : Instr}
    (hx : s.presentedAt x = some t) (hidle : ∀ y, y ≠ x → s.presentedAt y = none) (hd : decode t.cmd = .ok i)
    (he : exec i (s.atPort x t.data) = .next u) : u.sameBlock (cycleResult s) := by
  have hu := portResult_of_exec hx hd he
  have hother : ∀ y, y ≠ x → portResult y s = s.setRsp y none := fun y hy => portResult_idle (hidle y hy)
  obtain ⟨⟨hcap, hbytes, hkind⟩, -, -, hP, hC, hH⟩ := updateSets _ _ _ he
  cases hr : s.resets with
  | true =>
    obtain rfl := eq_H_of_resets hidle hr
    rw [cycleResult, if_pos hr, hu]
    exact ⟨rfl, rfl, rfl, ⟨rfl, rfl⟩, ⟨rfl, rfl, rfl⟩, rfl, rfl, rfl⟩
  | false =>
    rw [cycleResult, hr]
    cases x with
    | P =>
      obtain ⟨hrd, herrC, herrH⟩ := hP rfl
      rw [hu, hother .C (by decide), hother .H (by decide)]
      exact ⟨rfl, hrd.symm, rfl, ⟨rfl, rfl⟩, ⟨rfl, herrC.symm, herrH.symm⟩, hcap.symm, hbytes.symm, hkind.symm⟩
    | C =>
      obtain ⟨hwr, hmem, ⟨hopen, hlen⟩, herrP, herrH⟩ := hC rfl
      rw [hu, hother .P (by decide), hother .H (by decide)]
      exact ⟨hwr.symm, rfl, hmem.symm, ⟨hopen.symm, hlen.symm⟩, ⟨herrP.symm, rfl, herrH.symm⟩, hcap.symm, hbytes.symm,
        hkind.symm⟩
    | H =>
      have hi : i ≠ .reset := by
        rintro rfl
        simp [s.resets_iff.mpr (State.commandAt_eq_some.mpr ⟨t, hx, hd⟩)] at hr
      obtain ⟨hwr, hrd, hmem, ⟨hopen, hlen⟩, herrP, herrC⟩ := hH rfl hi
      rw [hu, hother .P (by decide), hother .C (by decide)]
      exact ⟨hwr.symm, hrd.symm, hmem.symm, ⟨hopen.symm, hlen.symm⟩, ⟨herrP.symm, herrC.symm, rfl⟩, hcap.symm, hbytes.symm,
        hkind.symm⟩

/-- Settles O11: nothing is refused, the block is the one the command leaves, and only its port is answered. -/
theorem stepRunsOnePort : Obligations.StepRunsOnePort := by
  intro s u x t i hl hx hidle hd he
  have hb : ∀ y, s.boundaryRefusal y = none := fun y => by
    by_cases hy : y = x
    · rw [hy]; exact boundaryRefusal_of_exec hx hd he
    · exact State.boundaryRefusal_of_idle (hidle y hy)
  have hrsp : s.resets = false ∨ x = .H := by
    cases hr : s.resets with
    | true => exact .inr (eq_H_of_resets hidle hr)
    | false => exact .inl rfl
  refine ⟨cycleResult s, step_of_boundary hl (State.sessionOver_of_presentedAt hx) hb,
    sameBlock_cycleResult_of_one_port hx hidle hd he, ?_, fun y hy => cycleResult_rspOf_idle (hidle y hy), rfl, rfl, rfl, rfl,
    rfl⟩
  rw [cycleResult_rspOf hrsp, portResult_of_exec hx hd he]

end Sys2Proof.Machine
end

section
/-! PROOF. The encoding (30_encoding.md R61, R65, R68, R70): a word is its three fields, the decoder answers on the word of each
command with that command and on no other word, and which opcodes and fields it rejects. -/

namespace Sys2Proof.Machine

/-- The fields of the word of a command (30_encoding.md R61). -/
theorem encode_fields (i : Instr) :
    fieldOp (encode i) = i.opcode ∧ fieldRsv (encode i) = 0#24 ∧ fieldArg (encode i) = i.operand :=
  Laws.EncodedFields.fields_of_word i.opcode i.operand

/-- A word is made of its fields: `cmd = {OP, RSV, ARG}` (30_encoding.md R61). -/
theorem append_fields (cmd : Command) : fieldOp cmd ++ fieldRsv cmd ++ fieldArg cmd = cmd := by
  have high : fieldOp cmd ++ fieldRsv cmd = cmd.extractLsb' 32 (24 + 8) :=
    BitVec.extractLsb'_append_extractLsb'_eq_extractLsb' (by decide)
  rw [high]
  exact (BitVec.extractLsb'_append_extractLsb'_eq_extractLsb' (by decide)).trans BitVec.extractLsb'_eq_self

/-- Settles O7: the fields of the word are the command's opcode, zero and its operand, and on these the decoder finds the
command. -/
theorem decodeEncode : Obligations.DecodeEncode := by
  intro i
  obtain ⟨hop, hrsv, harg⟩ := encode_fields i
  rw [decode, hop, hrsv, harg]
  cases i <;> rfl

/-- Settles O9: all but the last are words of commands; the last has an operand where none is allowed. -/
theorem wordsDecode : Obligations.WordsDecode :=
  ⟨decodeEncode .nop, decodeEncode (.push 3#32), decodeEncode (.wspan 0#32), decodeEncode (.spanWr 2#32),
    decodeEncode (.pop 10#32), decodeEncode .errStatus, decodeEncode (.segRd 2#32), decodeEncode .reset, rfl⟩

/-- The opcodes whose `ARG` is an operand (30_encoding.md R65). -/
theorem operandCommand_eq_none_iff (op : Nat) (arg : Word) :
    operandCommand op arg = none ↔ op ∉ [0x01, 0x02, 0x03, 0x08, 0x20] := by
  unfold operandCommand
  split <;> simp_all

/-- The opcodes whose `ARG` must be zero (30_encoding.md R67). -/
theorem zeroOperandCommand_eq_none_iff (op : Nat) :
    zeroOperandCommand op = none ↔ op ∉ [0x00, 0x04, 0x10, 0x11, 0x12, 0x13, 0x14, 0x15, 0x16, 0x3F] := by
  unfold zeroOperandCommand
  split <;> simp_all

/-- No opcode is of both kinds. -/
theorem zeroOperandCommand_of_operandCommand {op : Nat} {arg : Word} {i : Instr} (h : operandCommand op arg = some i) :
    zeroOperandCommand op = none := by
  have hop : op ∈ [0x01, 0x02, 0x03, 0x08, 0x20] := by
    by_contra hn
    rw [(operandCommand_eq_none_iff op arg).mpr hn] at h
    cases h
  rw [zeroOperandCommand_eq_none_iff]
  simp only [List.mem_cons, List.not_mem_nil, or_false] at hop ⊢
  omega

/-- The opcodes of neither kind are the unassigned ranges of 30_encoding.md R68. -/
theorem unassigned_iff (op : Nat) (arg : Word) :
    (operandCommand op arg = none ∧ zeroOperandCommand op = none) ↔
      (5 ≤ op ∧ op ≤ 7) ∨ (9 ≤ op ∧ op ≤ 0xF) ∨ (0x17 ≤ op ∧ op ≤ 0x1F) ∨ (0x21 ≤ op ∧ op ≤ 0x3E) ∨ 0x40 ≤ op := by
  simp only [operandCommand_eq_none_iff, zeroOperandCommand_eq_none_iff, List.mem_cons, List.not_mem_nil, or_false]
  omega

/-- The decoder rejects an opcode of neither kind, a nonzero `RSV`, and a nonzero `ARG` beside an opcode that takes no operand
(30_encoding.md R70). -/
theorem decode_illegal_iff (cmd : Command) :
    (∃ e, decode cmd = .error e) ↔
      (operandCommand (fieldOp cmd).toNat (fieldArg cmd) = none ∧ zeroOperandCommand (fieldOp cmd).toNat = none) ∨
      fieldRsv cmd ≠ 0#24 ∨
      (zeroOperandCommand (fieldOp cmd).toNat ≠ none ∧ fieldArg cmd ≠ 0#32) := by
  unfold decode
  cases hop : operandCommand (fieldOp cmd).toNat (fieldArg cmd) with
  | some i =>
    rw [zeroOperandCommand_of_operandCommand hop]
    by_cases hrsv : fieldRsv cmd = 0#24 <;> simp [hrsv]
  | none =>
    cases zeroOperandCommand (fieldOp cmd).toNat with
    | none => simp
    | some i =>
      by_cases hrsv : fieldRsv cmd = 0#24
      · by_cases harg : fieldArg cmd = 0#32 <;> simp [hrsv, harg]
      · simp [hrsv]

/-- A legal word has `RSV = 0` (30_encoding.md R68). -/
theorem fieldRsv_of_decode {cmd : Command} {i : Instr} (h : decode cmd = .ok i) : fieldRsv cmd = 0#24 := by
  by_contra hrsv
  obtain ⟨e, he⟩ := (decode_illegal_iff cmd).mpr (.inr (.inl hrsv))
  cases h.symm.trans he

/-- A word decodes to a command exactly when it is that command's word. -/
theorem decode_eq_ok_iff (cmd : Command) (i : Instr) : decode cmd = .ok i ↔ cmd = encode i := by
  constructor
  · intro h
    obtain ⟨hop, harg⟩ := decode_fields h
    rw [← append_fields cmd, hop, fieldRsv_of_decode h, harg, encode]
  · rintro rfl
    exact decodeEncode i

/-- An illegal word raises `ILLEGAL` at the port that presents it (60_exceptions.md R123). -/
theorem runPort_illegal {s : State} {x : Port} {t : Transaction} {e : DecodeError} (hx : s.presentedAt x = some t)
    (hd : decode t.cmd = .error e) : runPort x s = .next ((s.atPort x t.data).raiseErr .illegal) := by
  simp only [runPort, hx, hd]

/-- Settles O8: the opcodes are those the decoder rejects, a legal word is its command's word, and `raise Err` changes
the presenting port's response and error register only. -/
theorem illegalWords : Obligations.IllegalWords := by
  refine ⟨fun cmd => ?_, decode_eq_ok_iff, fun s x t e hx hd => ?_⟩
  · rw [decode_illegal_iff, unassigned_iff, ne_eq (zeroOperandCommand _), zeroOperandCommand_eq_none_iff, not_not]
  · refine ⟨_, runPort_illegal hx hd, ?_, rfl, rfl, rfl, ⟨rfl, rfl⟩, ⟨rfl, rfl, rfl⟩, ?_, fun y hy => ?_⟩
    · rw [State.raiseErr_rspOf, State.atPort_port, if_pos rfl, errorResponse]
    · rw [State.raiseErr_errOf, State.atPort_port, if_pos rfl, State.atPort_errOf]
      rfl
    · rw [State.raiseErr_errOf, State.atPort_port, if_neg hy.symm, State.atPort_errOf]

end Sys2Proof.Machine
end

section
/-! PROOF. Port legality (30_encoding.md R66): a command's own rule never answers `WRONG_PORT`. -/

namespace Sys2Proof.Machine

/-- A state that answers with another status is not the one `raise Err` leaves. -/
theorem State.ne_raiseErr_of_status {s t : State} {c : Status} {r : Response} (h : t.rspOf s.port = some r)
    (hr : r.status ≠ c) : t ≠ s.raiseErr c := by
  rintro rfl
  rw [State.raiseErr_rspOf, if_pos rfl] at h
  exact hr (congrArg Response.status (Option.some.inj h)).symm

/-- No command's own rule raises `WRONG_PORT`. -/
theorem execBody_ne_wrongPort (i : Instr) (s : State) : execBody i s ≠ s.raiseErr .wrongPort := by
  have raised : ∀ c : Status, c ≠ .wrongPort → s.raiseErr c ≠ s.raiseErr .wrongPort := fun c hc =>
    State.ne_raiseErr_of_status ((State.raiseErr_rspOf ..).trans (if_pos rfl)) hc
  have answered : ∀ (u : State) (n : Word) (d : List Elem) (w : Desc), u.port = s.port →
      u.respond n d w ≠ s.raiseErr .wrongPort := fun u n d w hu =>
    State.ne_raiseErr_of_status ((State.respond_rspOf ..).trans (if_pos hu)) nofun
  cases i with
  | push | wspan | spanCommit =>
    rw [execBody]
    split
    · exact raised _ (by decide)
    · exact answered _ _ _ _ rfl
  | spanWr | segRd =>
    rw [execBody]
    split
    · exact raised _ (by decide)
    · split
      · exact raised _ (by decide)
      · exact answered _ _ _ _ rfl
  | _ => exact answered _ _ _ _ rfl

/-- A well-formed command raises `WRONG_PORT` exactly on the ports that may not issue it. -/
theorem exec_eq_wrongPort_iff {i : Instr} {s : State} (hw : i.wellFormed s.elemBytes s.wdata = true) :
    exec i s = .next (s.raiseErr .wrongPort) ↔ legalPort i s.port = false := by
  refine ⟨fun h => ?_, exec_wrongPort hw⟩
  by_contra hp
  rw [exec_legal hw (by simpa using hp)] at h
  exact execBody_ne_wrongPort i s (Host.Outcome.next.inj h)

/-- Settles O12: which ports may issue a command is `legalPort`'s table. -/
theorem portLegality : Obligations.PortLegality := by
  intro s i hw
  rw [ne_eq (exec i s), exec_eq_wrongPort_iff hw]
  refine ⟨?_, ?_, ?_, ?_⟩
  · rintro ⟨n, rfl | rfl | rfl | rfl⟩ <;> simp [legalPort]
  · rintro ⟨n, rfl⟩
    simp [legalPort]
  · rintro ⟨n, rfl | rfl⟩ <;> simp [legalPort]
  · rintro (rfl | rfl | rfl | rfl | rfl | rfl | rfl | rfl) <;> simp [legalPort]

end Sys2Proof.Machine
end

section
/-! PROOF. The write data of a command (30_encoding.md R63) and the driver's `push` (R73). -/

namespace Sys2Proof.Machine

/-- Settles O40: a cycle that is not refused has the write data each presented word fixes. -/
theorem dataLengthRefused : Obligations.DataLengthRefused := by
  refine ⟨fun cmd => ⟨fun h => ?_, fun h => ?_, fun h1 h3 => ?_⟩, fun s x t hx hlen => ?_⟩
  · rw [writeLength, if_pos h]
  · rw [writeLength, h]
    rfl
  · rw [writeLength, if_neg h1, if_neg h3]
  · rw [step_eq]
    cases hc : s.cycleRefusal with
    | some r => exact ⟨r, rfl⟩
    | none =>
      obtain ⟨-, -, hb⟩ := cycleRefusal_eq_none.mp hc
      have hx' := hb x
      rw [State.boundaryRefusal, hx] at hx'
      obtain ⟨hok, -⟩ := (dataRefusal_eq_none ..).mp hx'
      exact absurd hok hlen

section
variable {elements : List Elem} {length? offset? : Option Nat}

/-- The driver's `push` of a part of the buffer is one `PUSH` of that part (30_encoding.md R73). -/
theorem driverPush_of_part {o l : Nat} (h : bufferPart elements.length length? offset? = some (o, l)) :
    driverPush elements length? offset? = some (commandOf (.push (BitVec.ofNat 32 l)) ((elements.drop o).take l)) := by
  rw [driverPush, h]

/-- Where there is no such part the driver's `push` has no expansion (assumption 15). -/
theorem driverPush_of_no_part (h : bufferPart elements.length length? offset? = none) :
    driverPush elements length? offset? = none := by
  rw [driverPush, h]

end

/-- Settles O45: the word is that of `PUSH`, and the part of the buffer is as long as its operand says. -/
theorem driverPushExpands : Obligations.DriverPushExpands := by
  intro elements length? offset? o l
  refine ⟨fun hfit hlen => ⟨_, driverPush_of_part (if_pos ⟨hfit, hlen⟩), decodeEncode _, rfl, ?_⟩,
    fun h => driverPush_of_no_part (if_neg h)⟩
  have hword : writeLength (encode (.push (BitVec.ofNat 32 l))) = l := by
    rw [writeLength_of_decode (decodeEncode _), Instr.dataCount, BitVec.toNat_ofNat, Nat.mod_eq_of_lt hlen]
  have hdata : ((elements.drop o).take l).length = l := by
    rw [List.length_take, List.length_drop]
    omega
  exact ⟨hdata.trans hword.symm, hword⟩

end Sys2Proof.Machine
end

section
/-! PROOF. The copying transfers `PUSH` and `POP` (40_transfer.md R80, R81): the states they give, the slots and the
elements they move, transfers of nothing, and the round trip (R83). -/

namespace Sys2Proof.Machine

/-- The update of `PUSH`: what fits is stored from the write cursor on and published (40_transfer.md R80). -/
theorem blockUpdate_push (len : Word) (s : State) :
    blockUpdate (.push len) s = (s.writeElems 0 (s.wdata.take (min len.toNat s.availableWrite))).advanceWr
      (min len.toNat s.availableWrite) :=
  rfl

/-- `PUSH` with no window open stores and publishes what fits (40_transfer.md R80). -/
theorem exec_push {s : State} {len : Word} (hp : s.port = .P) (ho : s.spanOpen = false)
    (hw : (Instr.push len).wellFormed s.elemBytes s.wdata = true) :
    exec (.push len) s = .next ((blockUpdate (.push len) s).respond
      (BitVec.ofNat 32 (min len.toNat s.availableWrite)) [] zeroDesc) := by
  rw [exec_legal hw (by rw [hp]; rfl), execBody, if_neg (by simp [ho])]
  rfl

/-- `POP` delivers what there is and moves the read cursor past it (40_transfer.md R81). -/
theorem exec_pop {s : State} {len : Word} (hp : s.port = .C) (hd : s.wdata = []) :
    exec (.pop len) s = .next ((s.advanceRd (min len.toNat s.availableRead)).respond
      (BitVec.ofNat 32 (min len.toNat s.availableRead)) (s.readElems (min len.toNat s.availableRead)) zeroDesc) := by
  rw [exec_legal (by rw [hd]; rfl) (by rw [hp]; rfl)]
  rfl

/-- The elements of a well-formed `PUSH` that fit are as many as the free space allows (30_encoding.md R63). -/
theorem length_pushed {s : State} {len : Word} (hw : (Instr.push len).wellFormed s.elemBytes s.wdata = true) :
    (s.wdata.take (min len.toNat s.availableWrite)).length = min len.toNat s.availableWrite := by
  obtain ⟨hlen, -⟩ := (wellFormed_iff ..).mp hw
  rw [List.length_take, hlen, Instr.dataCount]
  omega

/-- The slots from the write cursor on hold what `PUSH` stored (20_memory.md R45). -/
theorem blockUpdate_push_slot {s : State} {len : Word} {j : Nat}
    (hw : (Instr.push len).wellFormed s.elemBytes s.wdata = true) (hj : j < min len.toNat s.availableWrite) :
    (blockUpdate (.push len) s).slot (idx s.slotCount s.wr.toNat j) = s.wdata[j]? := by
  obtain ⟨-, hfit⟩ := (wellFormed_iff ..).mp hw
  have hlen := length_pushed hw
  have hroom := s.availableWrite_le
  have hN := s.slotCount_eq
  have hslot := Memory.slot_writeElems (n := s.slotCount) (base := s.wr.toNat) s.mem (j := 0) (t := j)
    (all_take hfit (min len.toNat s.availableWrite)) (by omega) (by omega)
  rw [Nat.zero_add, ← List.getElem?_eq_getElem, List.getElem?_take_of_lt hj] at hslot
  exact hslot

/-- A byte of none of the slots that `PUSH` fills is unchanged (40_transfer.md R80). -/
theorem blockUpdate_push_read {s : State} {len : Word} {a : Nat}
    (hw : (Instr.push len).wellFormed s.elemBytes s.wdata = true)
    (ha : ∀ j < min len.toNat s.availableWrite, ¬ (slotAddr s.elemBytes (idx s.slotCount s.wr.toNat j) ≤ a ∧
      a < slotAddr s.elemBytes (idx s.slotCount s.wr.toNat j) + s.elemBytes)) :
    Memory.read (blockUpdate (.push len) s).mem a = Memory.read s.mem a := by
  refine Memory.read_writeElems_of_ne _ _ _ _ _ _ _ fun j hj => ?_
  rw [length_pushed hw] at hj
  rw [Nat.zero_add]
  exact ha j hj

/-- Settles O19: the state `PUSH` gives, with its slots and its other bytes. -/
theorem pushResult : Obligations.PushResult := by
  intro s len hp ho hw
  refine ⟨_, exec_push hp ho hw, ⟨?_, s.toNat_advance .., fun j hj => blockUpdate_push_slot hw hj,
      fun a ha => blockUpdate_push_read hw ha⟩,
    rfl, ⟨rfl, rfl⟩, ⟨rfl, rfl, rfl⟩, ⟨rfl, rfl, rfl⟩, ⟨rfl, rfl, rfl, rfl, rfl⟩, ?_, ?_⟩
  · exact if_pos hp
  · exact if_neg (show s.port ≠ .C by simp [hp])
  · exact if_neg (show s.port ≠ .H by simp [hp])

/-- An element of the ring is read at its logical offset, as a value or as draws (40_transfer.md R81). -/
theorem State.getElem?_readElems_slotValue {s : State} {j k : Nat} (hj : j < k) :
    (s.readElems k)[j]? = some (s.slotValue (idx s.slotCount s.rd.toNat j)) := by
  rw [State.readElems, List.getElem?_map, List.getElem?_range hj, Option.map_some]

/-- `POP` reads an unset slot as fresh draws (20_memory.md R43). -/
theorem State.slotValue_of_unset {s : State} {i : Nat} (h : s.slot i = none) :
    s.slotValue i = elemOf (s.drawBytes (slotAddr s.elemBytes i) s.elemBytes) := by
  rw [State.slotValue, h]

/-- Settles O20: the state `POP` gives, with the elements it reads. -/
theorem popResult : Obligations.PopResult := by
  intro s len hp hd
  refine ⟨_, _, exec_pop hp hd, ⟨?_, State.length_readElems .., s.toNat_advance .., fun j hj =>
      ⟨fun v hv => State.getElem?_readElems hj hv, fun hn => ?_⟩⟩,
    rfl, rfl, ⟨rfl, rfl⟩, ⟨rfl, rfl, rfl⟩, ⟨rfl, rfl, rfl⟩, ⟨rfl, rfl, rfl, rfl, rfl⟩, ?_, ?_⟩
  · simp [hp]
  · rw [State.getElem?_readElems_slotValue hj, State.slotValue_of_unset hn, ← hp]
    rfl
  · simp [hp]
  · simp [hp]

/-- The data there is, from the place of the write cursor after the read cursor (10_state.md R25). -/
theorem State.availableRead_of_idx {s : State} {d : Nat} (hr : s.rd.toNat < s.slotCount) (hd : d ≤ s.cap)
    (h : s.wr.toNat = idx s.slotCount s.rd.toNat d) : s.availableRead = d := by
  rw [State.availableRead, h]
  exact distance_idx hr (Nat.lt_succ_of_le hd)

/-- A full ring has no free space (10_state.md R24, R25): its write cursor is `CAP` slots past the read cursor. -/
theorem State.availableWrite_of_isFull {s : State} (hw : s.wr.toNat < s.slotCount) (hr : s.rd.toNat < s.slotCount)
    (h : s.isFull = true) : s.availableWrite = 0 := by
  have hrd : idx s.slotCount s.wr.toNat 1 = s.rd.toNat := beq_iff_eq.mp h
  have hwr : s.wr.toNat = idx s.slotCount s.rd.toNat s.cap := by
    rw [← hrd, idx_idx, Nat.add_comm 1, ← s.slotCount_eq, idx, Nat.add_mod_right, Nat.mod_eq_of_lt hw]
  rw [State.availableWrite, State.availableRead_of_idx hr le_rfl hwr, Nat.sub_self]

/-- An empty ring has no data (10_state.md R24, R25): its cursors are in one place. -/
theorem State.availableRead_of_eq {s : State} (hr : s.rd.toNat < s.slotCount) (h : s.rd = s.wr) : s.availableRead = 0 := by
  refine State.availableRead_of_idx (d := 0) hr (Nat.zero_le _) ?_
  rw [← h, idx, Nat.add_zero, Nat.mod_eq_of_lt hr]

/-- A write cursor that moves by nothing stays (20_memory.md R47). -/
theorem State.advanceWr_zero {s : State} (hw : s.wr.toNat < s.slotCount) : s.advanceWr 0 = s := by
  rw [State.advanceWr, advance_zero hw]

/-- A read cursor that moves by nothing stays (20_memory.md R47). -/
theorem State.advanceRd_zero {s : State} (hr : s.rd.toNat < s.slotCount) : s.advanceRd 0 = s := by
  rw [State.advanceRd, advance_zero hr]

/-- A `PUSH` that moves nothing has no update of the block (40_transfer.md R83). -/
theorem blockUpdate_push_zero {s : State} {len : Word} (hw : s.wr.toNat < s.slotCount)
    (hk : min len.toNat s.availableWrite = 0) : blockUpdate (.push len) s = s := by
  have hstored : s.writeElems 0 (s.wdata.take 0) = s := rfl
  rw [blockUpdate_push, hk, hstored, State.advanceWr_zero hw]

/-- Settles O21: nothing is asked for, or there is no free space, or there is no data, so the transfer moves nothing. -/
theorem nothingMoves : Obligations.NothingMoves := by
  intro s len hw hr
  refine ⟨fun hp ho hwf hnone => ?_, fun hp hd hnone => ?_⟩
  · have hk : min len.toNat s.availableWrite = 0 := by
      rcases hnone with rfl | hfull
      · exact Nat.zero_min _
      · rw [State.availableWrite_of_isFull hw hr hfull, Nat.min_zero]
    rw [exec_push hp ho hwf, blockUpdate_push_zero hw hk, hk]
  · have hk : min len.toNat s.availableRead = 0 := by
      rcases hnone with rfl | hempty
      · exact Nat.zero_min _
      · rw [State.availableRead_of_eq hr (beq_iff_eq.mp hempty), Nat.min_zero]
    rw [exec_pop hp hd, hk, State.advanceRd_zero hr]
    rfl

/-- A `POP` of all the ring's elements, each of them set, delivers them and empties the ring (40_transfer.md R81). -/
theorem exec_pop_all {s : State} {n : Word} {vs : List Elem} (hp : s.port = .C) (hd : s.wdata = [])
    (hall : s.availableRead = n.toNat) (hwr : s.wr = advance s.slotCount s.rd n.toNat) (hlen : vs.length = n.toNat)
    (hvs : ∀ j < n.toNat, s.slot (idx s.slotCount s.rd.toNat j) = vs[j]?) :
    ∃ u, exec (.pop n) s = .next u ∧ u.rspC = some ⟨.ok, n, vs, zeroDesc⟩ ∧ u.isEmpty = true := by
  have hdata : s.readElems n.toNat = vs := by
    refine List.ext_getElem? fun j => ?_
    by_cases hj : j < n.toNat
    · have hv : vs[j]? = some vs[j] := List.getElem?_eq_getElem (by omega)
      rw [hv]
      exact State.getElem?_readElems hj ((hvs j hj).trans hv)
    · rw [List.getElem?_eq_none (by rw [s.length_readElems]; omega), List.getElem?_eq_none (by omega)]
  refine ⟨_, exec_pop hp hd, ?_, ?_⟩
  · rw [hall, Nat.min_self, hdata, BitVec.ofNat_toNat, BitVec.setWidth_eq]
    exact if_pos hp
  · rw [hall, Nat.min_self]
    exact beq_iff_eq.mpr hwr.symm

/-- Settles O37: an empty ring has room for all `n` elements, so the `PUSH` leaves the write cursor `n` slots past the read cursor
and the filled slots with its elements, and the `POP` takes all of them. -/
theorem pushPopRoundTrip : Obligations.PushPopRoundTrip := by
  intro s n hi hempty hp ho hn hw
  have hroom : min n.toNat s.availableWrite = n.toNat := by
    rw [State.availableWrite, State.availableRead_of_eq hi.rd_lt hempty]
    exact Nat.min_eq_left hn
  obtain ⟨hlen, -⟩ := (wellFormed_iff ..).mp hw
  refine ⟨_, exec_push hp ho hw, fun t' hwr hrd ⟨hcap, _⟩ hp' hd' hslots => ?_⟩
  have hcap' : t'.cap = s.cap := congrArg BitVec.toNat hcap
  have hN : t'.slotCount = s.slotCount := congrArg (· + 1) hcap'
  have hrd' : t'.rd = s.rd := hrd
  have hwr' : t'.wr = advance t'.slotCount t'.rd n.toNat := by
    rw [hN, hrd', hempty, ← hroom]
    exact hwr
  have hread : t'.availableRead = n.toNat :=
    State.availableRead_of_idx (by rw [hN, hrd']; exact hi.rd_lt) (hn.trans_eq hcap'.symm)
      (by rw [hwr', t'.toNat_advance])
  refine exec_pop_all hp' hd' hread hwr' hlen fun j hj => ?_
  rw [hN, hrd', hempty, ← blockUpdate_push_slot hw (hroom.symm ▸ hj), ← hempty]
  exact hslots j hj

end Sys2Proof.Machine
end

section
/-! PROOF. The span window (41_span.md R90 to R92): the states `WSPAN`, `SPAN_WR` and `SPAN_COMMIT` give on port `P`, the spans
of a grant, and the one slot that `SPAN_WR` writes. -/

namespace Sys2Proof.Machine

/-- An answer to a command on port `P` is that port's response and leaves the other ports' (30_encoding.md R64). -/
theorem respond_on_P {s : State} (hp : s.port = .P) (count : Word) (data : List Elem) (desc : Desc) :
    (s.respond count data desc).rspP = some ⟨.ok, count, data, desc⟩ ∧
    (s.respond count data desc).rspC = s.rspC ∧ (s.respond count data desc).rspH = s.rspH := by
  simp [hp]

/-- `WSPAN` with no window open opens it for what fits and describes its spans (41_span.md R90). -/
theorem exec_wspan {s : State} {amount : Word} (hp : s.port = .P) (ho : s.spanOpen = false) (hd : s.wdata = []) :
    exec (.wspan amount) s = .next ((s.setWindow true (BitVec.ofNat 32 (min amount.toNat s.availableWrite))).respond
      (BitVec.ofNat 32 (min amount.toNat s.availableWrite)) []
      (splitDesc s.slotCount s.wr.toNat (min amount.toNat s.availableWrite))) := by
  rw [exec_legal (by rw [hd]; rfl) (by rw [hp]; rfl), execBody, if_neg (by simp [ho])]

/-- One element goes to one slot, the one at its logical offset from the write cursor (20_memory.md R45). -/
theorem State.writeElems_singleton (s : State) (j : Nat) (v : Elem) :
    s.writeElems j [v] =
      { s with mem := Memory.writeSlot s.elemBytes s.mem (idx s.slotCount s.wr.toNat j) v } :=
  rfl

/-- `SPAN_WR` inside the grant of an open window writes its element to the one slot it names (41_span.md R91). -/
theorem exec_spanWr {s : State} {j : Word} {v : Elem} (hp : s.port = .P) (ho : s.spanOpen = true)
    (hj : j.toNat < s.spanLen.toNat) (hd : s.wdata = [v]) (hv : elemFits s.elemBytes v = true) :
    exec (.spanWr j) s = .next ({ s with
      mem := Memory.writeSlot s.elemBytes s.mem (idx s.slotCount s.wr.toNat j.toNat) v }.respond 0#32 [] zeroDesc) := by
  have hw : (Instr.spanWr j).wellFormed s.elemBytes s.wdata = true :=
    (wellFormed_iff ..).mpr ⟨by rw [hd]; rfl, by simp [hd, hv]⟩
  rw [← s.writeElems_singleton, exec_legal hw (by rw [hp]; rfl), execBody, if_neg (by simp [ho]), if_neg (by omega), hd]

/-- `SPAN_COMMIT` moves the write cursor past the grant and closes the window (41_span.md R92). -/
theorem exec_spanCommit {s : State} (hp : s.port = .P) (ho : s.spanOpen = true) (hd : s.wdata = []) :
    exec .spanCommit s =
      .next (((s.advanceWr s.spanLen.toNat).setWindow false 0#32).respond s.spanLen [] zeroDesc) := by
  rw [exec_legal (by rw [hd]; rfl) (by rw [hp]; rfl), execBody, if_neg (by simp [ho])]

/-- The two spans of a transfer of at most `CAP` slots from the write cursor, as numbers: each length fits its field
(20_memory.md R46, 30_encoding.md R71). -/
theorem State.splitDesc_wr {s : State} {k : Nat} (hk : k ≤ s.cap) :
    (splitDesc s.slotCount s.wr.toNat k).off1 = s.wr ∧ (splitDesc s.slotCount s.wr.toNat k).off2 = 0#32 ∧
    (splitDesc s.slotCount s.wr.toNat k).len1.toNat = min (s.slotCount - s.wr.toNat) k ∧
    (splitDesc s.slotCount s.wr.toNat k).len2.toNat = k - min (s.slotCount - s.wr.toNat) k :=
  ⟨by rw [splitDesc, BitVec.ofNat_toNat, BitVec.setWidth_eq], rfl,
    toNat_ofNat_of_le_cap ((Nat.min_le_right ..).trans hk), toNat_ofNat_of_le_cap ((Nat.sub_le ..).trans hk)⟩

/-- Settles O22: the state `WSPAN` gives; the grant is at most `CAP`, so it and its spans fit their fields. -/
theorem wspanResult : Obligations.WspanResult := by
  intro s amount hp ho hd
  have hg : min amount.toNat s.availableWrite ≤ s.cap := (Nat.min_le_right ..).trans s.availableWrite_le
  obtain ⟨hP, hC, hH⟩ := respond_on_P (s := s.setWindow true _) hp _ _ _
  exact ⟨_, exec_wspan hp ho hd, ⟨rfl, toNat_ofNat_of_le_cap hg, _, hP, State.splitDesc_wr hg⟩,
    rfl, rfl, rfl, ⟨rfl, rfl, rfl⟩, ⟨rfl, rfl, rfl⟩, ⟨rfl, rfl, rfl, rfl, rfl⟩, hC, hH⟩

/-- Settles O24: the state `SPAN_WR` gives has one slot written, and the other slots and bytes seen through that write. -/
theorem spanWrResult : Obligations.SpanWrResult := by
  intro s j v hp ho hj hd hv
  obtain ⟨hP, hC, hH⟩ := respond_on_P (s := { s with mem := Memory.writeSlot .. }) hp 0#32 [] zeroDesc
  exact ⟨_, exec_spanWr hp ho hj hd hv, hP, Memory.slot_writeSlot_self _ _ hv,
    fun i hi => Memory.slot_writeSlot_of_ne _ _ _ hi.symm, fun a ha => Memory.read_writeSlot_of_ne _ _ _ _ _ ha,
    rfl, rfl, ⟨rfl, rfl⟩, ⟨rfl, rfl, rfl⟩, ⟨rfl, rfl, rfl⟩, ⟨rfl, rfl, rfl, rfl, rfl⟩, hC, hH⟩

/-- Settles O25: the state `SPAN_COMMIT` gives, its write cursor as a number. -/
theorem spanCommitResult : Obligations.SpanCommitResult := by
  intro s hp ho hd
  obtain ⟨hP, hC, hH⟩ :=
    respond_on_P (s := (s.advanceWr s.spanLen.toNat).setWindow false 0#32) hp s.spanLen [] zeroDesc
  exact ⟨_, exec_spanCommit hp ho hd, hP, s.toNat_advance .., rfl, rfl, rfl, rfl, ⟨rfl, rfl, rfl⟩, ⟨rfl, rfl, rfl⟩,
    ⟨rfl, rfl, rfl, rfl, rfl⟩, hC, hH⟩

end Sys2Proof.Machine
end

section
/-! PROOF. The queries (42_status.md): what they answer on every port (R100 to R107), and that what a side has read of the
availability is a floor until that side moves its own cursor (R108). -/

namespace Sys2Proof.Machine

/-- In a cycle that does not move the read cursor the data does not shrink: only the producer moves, and it publishes slots
(42_status.md R108). -/
theorem CycleEffect.availableRead_le {s t : State} (hi : s.Inv) (e : CycleEffect s t) (hr : t.rd = s.rd) :
    s.availableRead ≤ t.availableRead := by
  obtain ⟨-, -, p, k, -, hk, -, hadv, hread⟩ := e.cursors hi
  have hk0 : k = 0 := eq_zero_of_advance_eq hi.rd_lt (hk.trans s.availableRead_le) (hadv.symm.trans hr)
  omega

/-- Settles O44: only the other side's cursor moves in such a cycle; the consumer's frees slots and the producer's publishes
them. -/
theorem readingsAreFloors : Obligations.ReadingsAreFloors := by
  intro s t hi h hr
  have e := cycleEffect_of_step h hr
  exact ⟨e.availableWrite_le hi, e.availableRead_le hi⟩

/-- A command without write data that every port may issue completes on every port (30_encoding.md R63, R66). -/
theorem exec_of_legal_everywhere {i : Instr} {s : State} (hd : s.wdata = []) (hn : i.dataCount = 0)
    (hp : ∀ x, legalPort i x = true) : exec i s = .next (execBody i s) :=
  exec_legal ((wellFormed_iff ..).mpr (by simp [hd, hn])) (hp s.port)

/-- `EMPTY` answers whether the cursors are equal (10_state.md R24). -/
theorem State.flagWord_isEmpty (s : State) : flagWord s.isEmpty = if s.rd = s.wr then 1#32 else 0#32 := by
  simp only [flagWord, State.isEmpty, beq_iff_eq]

/-- `FULL` answers whether the slot after the write cursor is the one at the read cursor (10_state.md R24). -/
theorem State.flagWord_isFull (s : State) :
    flagWord s.isFull = if (s.wr.toNat + 1) % (s.cfgCap.toNat + 1) = s.rd.toNat then 1#32 else 0#32 := by
  simp only [flagWord, State.isFull, State.slotCount, State.cap, beq_iff_eq]

/-- Settles O16: each of these completes with its own rule's answer, and the flags are the comparisons of the cursors. -/
theorem queryAnswers : Obligations.QueryAnswers := by
  intro s hd
  rw [← s.flagWord_isEmpty, ← s.flagWord_isFull]
  refine ⟨?_, ?_, ?_, ?_, ?_, ?_⟩ <;> exact exec_of_legal_everywhere hd rfl fun _ => rfl

/-- In a packed word the field that follows the low part starts at the low part's width. -/
theorem extractLsb'_append_field {u w v : Nat} (hi : BitVec u) (x : BitVec w) (lo : BitVec v) :
    (hi ++ x ++ lo).extractLsb' v w = x := by
  rw [BitVec.extractLsb'_append_eq_of_le le_rfl, Nat.sub_self, BitVec.extractLsb'_append_eq_right]

/-- A field above the low part of a packed word is a field of the rest, so many bits lower. -/
theorem extractLsb'_append_above {u v start len : Nat} {hi : BitVec u} {lo : BitVec v} {x : BitVec len}
    (h : hi.extractLsb' start len = x) : (hi ++ lo).extractLsb' (start + v) len = x := by
  rw [BitVec.extractLsb'_append_eq_of_le (Nat.le_add_left ..), Nat.add_sub_cancel, h]

/-- The fields of the word `ELEM_INFO` answers (42_status.md R106). -/
theorem State.elemInfoWord_fields (s : State) :
    s.elemInfoWord.extractLsb' 0 8 = s.cfgElemBytes ∧ s.elemInfoWord.extractLsb' 8 8 = s.cfgElemKind ∧
    s.elemInfoWord.extractLsb' 16 16 = 0#16 :=
  ⟨BitVec.extractLsb'_append_eq_right, extractLsb'_append_field ..,
    extractLsb'_append_above BitVec.extractLsb'_append_eq_left⟩

/-- The fields of the word `ERR_STATUS` answers, the gaps between the registers included (42_status.md R107). -/
theorem State.errStatusWord_fields (s : State) :
    s.errStatusWord.extractLsb' 0 5 = s.errP ∧ s.errStatusWord.extractLsb' 5 3 = 0#3 ∧
    s.errStatusWord.extractLsb' 8 5 = s.errC ∧ s.errStatusWord.extractLsb' 13 3 = 0#3 ∧
    s.errStatusWord.extractLsb' 16 5 = s.errH ∧ s.errStatusWord.extractLsb' 21 11 = 0#11 := by
  refine ⟨BitVec.extractLsb'_append_eq_right, extractLsb'_append_field .., ?_, ?_, ?_, ?_⟩
  · exact extractLsb'_append_above (extractLsb'_append_field ..)
  · exact extractLsb'_append_above (extractLsb'_append_above (extractLsb'_append_field ..))
  · exact extractLsb'_append_above (extractLsb'_append_above (extractLsb'_append_above (extractLsb'_append_field ..)))
  · exact extractLsb'_append_above (extractLsb'_append_above (extractLsb'_append_above
      (extractLsb'_append_above BitVec.extractLsb'_append_eq_left)))

/-- Settles O17: the answers are the two packed words, whose fields are the registers. -/
theorem packedAnswers : Obligations.PackedAnswers := by
  intro s hd
  exact ⟨⟨_, exec_of_legal_everywhere hd rfl fun _ => rfl, s.elemInfoWord_fields⟩,
    _, exec_of_legal_everywhere hd rfl fun _ => rfl, s.errStatusWord_fields⟩

end Sys2Proof.Machine
end

section
/-! PROOF. The host port (43_host.md): the states `SEG_RD` (R115) and `RESET` (R116) give there, the bytes of the word `SEG_RD`
answers, and which commands write the cursors and the slots (R117). -/

namespace Sys2Proof.Machine

/-- An answer to a command on port `H` is that port's response and leaves the other ports' (30_encoding.md R64). -/
theorem respond_on_H {s : State} (hp : s.port = .H) (count : Word) (data : List Elem) (desc : Desc) :
    (s.respond count data desc).rspH = some ⟨.ok, count, data, desc⟩ ∧
    (s.respond count data desc).rspP = s.rspP ∧ (s.respond count data desc).rspC = s.rspC := by
  simp [hp]

/-- An answer alone changes no state of the block and nothing that is presented (30_encoding.md R64). -/
theorem State.respond_frame (s : State) (count : Word) (data : List Elem) (desc : Desc) :
    s.sameBlock (s.respond count data desc) ∧ s.sameInputs (s.respond count data desc) :=
  ⟨⟨rfl, rfl, rfl, ⟨rfl, rfl⟩, ⟨rfl, rfl, rfl⟩, rfl, rfl, rfl⟩, rfl, rfl, rfl, rfl, rfl⟩

/-- `SEG_RD` of an aligned address inside the segment answers the word there (43_host.md R115). -/
theorem exec_segRd {s : State} {a : Word} (hp : s.port = .H) (hd : s.wdata = []) (halign : a.toNat % 4 = 0)
    (hrange : a.toNat < s.segBytes) :
    exec (.segRd a) s = .next (s.respond (s.segWord a.toNat) [] zeroDesc) := by
  rw [exec_legal (by rw [hd]; rfl) (by rw [hp]; rfl), execBody, if_neg (not_not.mpr halign), if_neg (not_le.mpr hrange)]

/-- Byte `k` of the number a little-endian byte list stands for is the list's, and 0 past its end (20_memory.md R42). -/
theorem ofNat_numberOf_shiftRight (bs : List Byte) (k : Nat) :
    BitVec.ofNat 8 (numberOf bs >>> (8 * k)) = bs.getD k 0#8 := by
  induction bs generalizing k with
  | nil => simp [numberOf]
  | cons b bs ih =>
    have hb := b.isLt
    cases k with
    | zero =>
      apply BitVec.eq_of_toNat_eq
      simp only [numberOf, Nat.mul_zero, Nat.shiftRight_zero, BitVec.toNat_ofNat, List.getD_cons_zero]
      omega
    | succ k =>
      have hrest : numberOf (b :: bs) >>> 8 = numberOf bs := by
        rw [numberOf, Nat.shiftRight_eq_div_pow]
        omega
      rw [Nat.mul_succ, Nat.add_comm, Nat.shiftRight_add, hrest, ih, List.getD_cons_succ]

/-- The bytes of a register that holds the number of a little-endian byte list (20_memory.md R42). -/
theorem byteOf_ofNat_numberOf {w : Nat} {bs : List Byte} (h : 8 * bs.length ≤ w) (k : Nat) :
    byteOf (BitVec.ofNat w (numberOf bs)) k = bs.getD k 0#8 := by
  have hlt : numberOf bs < 2 ^ w := (numberOf_lt bs).trans_le (Nat.pow_le_pow_right (by decide) h)
  rw [← ofNat_numberOf_shiftRight, byteOf, BitVec.extractLsb', BitVec.toNat_ofNat, Nat.mod_eq_of_lt hlt]

/-- The bytes of the word `SEG_RD` reads are the segment's, and 0 past its end (43_host.md R115). -/
theorem State.byteOf_segWord (s : State) (a : Nat) {j : Nat} (hj : j < 4) :
    byteOf (s.segWord a) j = s.segByteOrZero (a + j) := by
  rw [State.segWord, byteOf_ofNat_numberOf (by simp)]
  interval_cases j <;> rfl

/-- A word is its four bytes. -/
theorem eq_of_byteOf_eq {v w : Word} (h : ∀ j < 4, byteOf v j = byteOf w j) : v = w := by
  refine BitVec.eq_of_getLsbD_eq fun i hi => ?_
  have hbit := congrArg (BitVec.getLsbD · (i % 8)) (h (i / 8) (by omega))
  simpa [byteOf, Nat.mod_lt, Nat.div_add_mod] using hbit

/-- The cursors lie inside the segment, whatever its slots (20_memory.md R40). -/
theorem State.eight_le_segBytes (s : State) : 8 ≤ s.segBytes := Nat.le_add_right ..

/-- At the segment's addresses 0 and 4 `SEG_RD` reads the cursors (20_memory.md R50). -/
theorem State.segWord_cursors (s : State) : s.segWord 0 = s.wr ∧ s.segWord 4 = s.rd := by
  have hseg := s.eight_le_segBytes
  constructor <;> refine eq_of_byteOf_eq fun j hj => ?_
  · obtain ⟨hwr, -⟩ := s.segByte_cursor hj
    rw [s.byteOf_segWord 0 hj, State.segByteOrZero, if_pos (by omega), Nat.zero_add, hwr]
  · obtain ⟨-, hrd⟩ := s.segByte_cursor hj
    rw [s.byteOf_segWord 4 hj, State.segByteOrZero, if_pos (by omega), hrd]

/-- Settles O27: the state `SEG_RD` gives, with the bytes of its word; at 0 and 4 these are the cursors'. -/
theorem segRdResult : Obligations.SegRdResult := by
  intro s a hp hd halign hrange
  obtain ⟨hH, hP, hC⟩ := respond_on_H hp (s.segWord a.toNat) [] zeroDesc
  obtain ⟨hwr, hrd⟩ := s.segWord_cursors
  obtain ⟨hblock, hin⟩ := s.respond_frame (s.segWord a.toNat) [] zeroDesc
  exact ⟨_, _, exec_segRd hp hd halign hrange, hH, fun j hj => s.byteOf_segWord a.toNat hj,
    fun h => h ▸ hwr, fun h => h ▸ hrd, hblock, hin, hP, hC⟩

/-- What `RESET` leaves on port `H`: the reset state with its answer (43_host.md R116). -/
theorem afterExec_reset {s : State} (hp : s.port = .H) :
    afterExec .reset s = s.resetState.respond 0#32 [] zeroDesc := by
  rw [afterExec, hp]
  rfl

/-- Settles O28: the state `RESET` gives, and that `ResetState()` keeps the configuration and what is presented. -/
theorem resetResult : Obligations.ResetResult := by
  intro s hp hd
  obtain ⟨hH, hP, hC⟩ := respond_on_H (s := s.resetState) hp 0#32 [] zeroDesc
  obtain ⟨hblock, hin⟩ := s.resetState.respond_frame 0#32 [] zeroDesc
  obtain ⟨hcfg, -, -⟩ := blockUpdate_frame .reset s
  refine ⟨_, exec_of_wellFormed (by rw [hd]; rfl), ?_⟩
  rw [afterExec_reset hp]
  exact ⟨hH, hblock, hcfg, hin, hP, hC⟩

/-- The updates that move the write cursor (43_host.md R117). -/
theorem eq_of_blockUpdate_wr_ne {i : Instr} {s : State} (h : (blockUpdate i s).wr ≠ s.wr) :
    (∃ len, i = .push len) ∨ i = .spanCommit ∨ i = .reset := by
  cases i with
  | push len => exact .inl ⟨len, rfl⟩
  | spanCommit => exact .inr (.inl rfl)
  | reset => exact .inr (.inr rfl)
  | _ => exact absurd rfl h

/-- The updates that move the read cursor (43_host.md R117). -/
theorem eq_of_blockUpdate_rd_ne {i : Instr} {s : State} (h : (blockUpdate i s).rd ≠ s.rd) :
    (∃ len, i = .pop len) ∨ i = .reset := by
  cases i with
  | pop len => exact .inl ⟨len, rfl⟩
  | reset => exact .inr rfl
  | _ => exact absurd rfl h

/-- The updates that write slots (43_host.md R117). -/
theorem eq_of_blockUpdate_mem_ne {i : Instr} {s : State} (h : (blockUpdate i s).mem ≠ s.mem) :
    (∃ len, i = .push len) ∨ (∃ j, i = .spanWr j) ∨ i = .reset := by
  cases i with
  | push len => exact .inl ⟨len, rfl⟩
  | spanWr j => exact .inr (.inl ⟨j, rfl⟩)
  | reset => exact .inr (.inr rfl)
  | _ => exact absurd rfl h

/-- The cursors and the slots after a command are as it found them, or as its own update leaves them. -/
theorem segment_of_exec {i : Instr} {s t : State} (h : exec i s = .next t) :
    (t.wr = s.wr ∧ t.rd = s.rd ∧ t.mem = s.mem) ∨
    (t.wr = (blockUpdate i s).wr ∧ t.rd = (blockUpdate i s).rd ∧ t.mem = (blockUpdate i s).mem) := by
  cases commandEnds_of_exec h with
  | failed c h1 h7 => exact .inl ⟨rfl, rfl, rfl⟩
  | succeeded hp count => exact .inr ⟨rfl, rfl, rfl⟩

/-- A legal block's `RESET` leaves every slot unset (43_host.md R116, 70_reset_and_hazards.md R142). -/
theorem slot_of_exec_reset {s t : State} (hp : s.port = .H) (hl : s.params.legal = true) (h : exec .reset s = .next t)
    (j : Nat) : t.slot j = none := by
  obtain ⟨-, rfl⟩ := exec_next h
  rw [afterExec_reset hp]
  exact State.slot_of_mem_nil (s := s.resetState.respond ..) (State.elemBytes_pos (s := s) hl) rfl j

/-- Settles O33: the writers are those whose update changes the cursor or the slots, and each port's update set excludes what the
other ports write. -/
theorem singleWriter : Obligations.SingleWriter := by
  intro s t i h
  obtain ⟨-, -, -, hP, hC, hH⟩ := updateSets s t i h
  refine ⟨fun hne => ?_, fun hne => ?_, fun hne => ?_, fun hx hi => ?_, fun hx hi => ?_, fun hx hi => ?_, ?_⟩
  · obtain ⟨hwr, -, -⟩ | ⟨hwr, -, -⟩ := segment_of_exec h
    · exact absurd hwr hne
    · exact eq_of_blockUpdate_wr_ne (hwr ▸ hne)
  · obtain ⟨-, hrd, -⟩ | ⟨-, hrd, -⟩ := segment_of_exec h
    · exact absurd hrd hne
    · exact eq_of_blockUpdate_rd_ne (hrd ▸ hne)
  · obtain ⟨-, -, hmem⟩ | ⟨-, -, hmem⟩ := segment_of_exec h
    · exact absurd hmem hne
    · exact eq_of_blockUpdate_mem_ne (hmem ▸ hne)
  · obtain ⟨hwr, hrd, hmem, -⟩ := hH hx hi
    exact ⟨hwr, hrd, hmem⟩
  · cases hport : s.port with
    | P => exact absurd hport hx
    | C => exact (hC hport).1
    | H => exact (hH hport hi).1
  · cases hport : s.port with
    | P => exact (hP hport).1
    | C => exact absurd hport hx
    | H =>
      obtain ⟨-, hrd, -⟩ := hH hport hi
      exact hrd
  · rintro hp rfl hl
    exact slot_of_exec_reset hp hl h

end Sys2Proof.Machine
end

section
/-! PROOF. The exceptions (60_exceptions.md): the checks of a command and their order (R123), what a failure leaves (R124, R125),
the cycle of a legal `RESET` (R126), and that no port's command depends on another's (R130). -/

namespace Sys2Proof.Machine

/-- A legal word runs its command on the port that presents it (20_memory.md R52). -/
theorem runPort_legal {s : State} {x : Port} {t : Transaction} {i : Instr} (hx : s.presentedAt x = some t)
    (hd : decode t.cmd = .ok i) : runPort x s = exec i (s.atPort x t.data) := by
  simp only [runPort, hx, hd]

/-- A command none of whose own checks fails answers `OK` (60_exceptions.md R123). -/
theorem execBody_eq_respond {i : Instr} {s : State}
    (hopen : ¬((∃ n, i = .push n ∨ i = .wspan n) ∧ s.spanOpen = true))
    (hclosed : ¬((∃ n, i = .spanWr n ∨ i = .spanCommit) ∧ s.spanOpen = false))
    (hrange : ¬∃ j, i = .spanWr j ∧ s.spanLen.toNat ≤ j.toNat)
    (halign : ¬∃ a, i = .segRd a ∧ a.toNat % 4 ≠ 0)
    (hseg : ¬∃ a, i = .segRd a ∧ s.segBytes ≤ a.toNat) :
    ∃ u count data desc, execBody i s = State.respond u count data desc ∧ u.port = s.port := by
  cases i with
  | push len =>
    rw [execBody, if_neg fun ho => hopen ⟨⟨len, .inl rfl⟩, ho⟩]
    exact ⟨_, _, _, _, rfl, rfl⟩
  | wspan amount =>
    rw [execBody, if_neg fun ho => hopen ⟨⟨amount, .inr rfl⟩, ho⟩]
    exact ⟨_, _, _, _, rfl, rfl⟩
  | spanWr j =>
    rw [execBody, if_neg fun ho => hclosed ⟨⟨j, .inl rfl⟩, ho⟩, if_neg fun hj => hrange ⟨j, rfl, hj⟩]
    exact ⟨_, _, _, _, rfl, rfl⟩
  | spanCommit =>
    rw [execBody, if_neg fun ho => hclosed ⟨⟨0#32, .inr rfl⟩, ho⟩]
    exact ⟨_, _, _, _, rfl, rfl⟩
  | segRd a =>
    rw [execBody, if_neg fun ha => halign ⟨a, rfl, ha⟩, if_neg fun ha => hseg ⟨a, rfl, ha⟩]
    exact ⟨_, _, _, _, rfl, rfl⟩
  | _ => exact ⟨_, _, _, _, rfl, rfl⟩

/-- Settles O13: the decoder's check is made on the word, the port's before the command's own rule, and in that rule the checks of
the window come before those of the offset, and alignment before the segment's range. -/
theorem checkOrder : Obligations.CheckOrder := by
  refine ⟨fun s x t e hx hd => runPort_illegal hx hd, fun s x t i hx hd => runPort_legal hx hd, fun s i hw => ?_⟩
  by_cases hport : legalPort i s.port = false
  · rw [if_pos hport]
    exact exec_wrongPort hw hport
  rw [if_neg hport, exec_legal hw (by simpa using hport)]
  split_ifs with hopen hclosed hrange halign hseg
  · obtain ⟨⟨n, rfl | rfl⟩, ho⟩ := hopen <;> rw [execBody, if_pos ho]
  · obtain ⟨⟨n, rfl | rfl⟩, ho⟩ := hclosed <;> rw [execBody, if_pos ho]
  · obtain ⟨j, rfl, hj⟩ := hrange
    rw [execBody, if_neg fun ho => hclosed ⟨⟨j, .inl rfl⟩, ho⟩, if_pos hj]
  · obtain ⟨a, rfl, ha⟩ := halign
    rw [execBody, if_pos ha]
  · obtain ⟨a, rfl, ha⟩ := hseg
    rw [execBody, if_neg fun hn => halign ⟨a, rfl, hn⟩, if_pos ha]
  · obtain ⟨u, count, data, desc, hu, hport⟩ := execBody_eq_respond hopen hclosed hrange halign hseg
    exact ⟨_, ⟨.ok, count, data, desc⟩, rfl, by rw [hu, State.respond_rspOf, if_pos hport], rfl⟩

/-- A port answered by a rule that ran is answered `OK` (30_encoding.md R64). -/
theorem State.status_of_respond_rspOf {s : State} {x : Port} {count : Word} {data : List Elem} {desc : Desc} {r : Response}
    (hp : s.port = x) (h : (s.respond count data desc).rspOf x = some r) : r.status = .ok := by
  rw [State.respond_rspOf, if_pos hp] at h
  rw [← Option.some.inj h]

/-- Settles O14: only a raised error answers anything but `OK`, and it changes its port's response and error register alone. -/
theorem errorEffect : Obligations.ErrorEffect := by
  intro s t i r h hr hne
  cases commandEnds_of_exec h with
  | failed c h1 h7 =>
    rw [State.raiseErr_rspOf, if_pos rfl] at hr
    obtain rfl := Option.some.inj hr
    refine ⟨rfl, h1, h7, rfl, rfl, rfl, ⟨rfl, rfl⟩, ⟨rfl, rfl, rfl⟩, ⟨rfl, rfl, rfl, rfl, rfl⟩, ?_, fun y hy => ?_⟩
    · rw [State.raiseErr_errOf, if_pos rfl]
      rfl
    · rw [State.raiseErr_errOf, State.raiseErr_rspOf, if_neg hy.symm, if_neg hy.symm]
      exact ⟨rfl, rfl⟩
  | succeeded hp count =>
    obtain ⟨-, ⟨-, -, -, hport, -⟩, -⟩ := blockUpdate_frame i s
    exact absurd (State.status_of_respond_rspOf hport hr) hne

/-- What port `x` is answered, against its error register (60_exceptions.md R125): a failure with a code in `1..7` is recorded, and
beside any other answer, or none, the register stays. -/
def StickyEffect (x : Port) (s t : State) : Prop :=
  (∃ r, t.rspOf x = some r ∧ 1 ≤ r.status.code.toNat ∧ r.status.code.toNat ≤ 7 ∧
    t.errOf x = errRecord (s.errOf x) r.status.code) ∨
  ((∀ r, t.rspOf x = some r → r.status = .ok) ∧ t.errOf x = s.errOf x)

/-- `raise Err` records the code it answers with. -/
theorem stickyEffect_raiseErr (s : State) {c : Status} (h1 : 1 ≤ c.code.toNat) (h7 : c.code.toNat ≤ 7) :
    StickyEffect s.port s (s.raiseErr c) :=
  .inl ⟨errorResponse c, by rw [State.raiseErr_rspOf, if_pos rfl], h1, h7, by rw [State.raiseErr_errOf, if_pos rfl]; rfl⟩

/-- Two states that agree on the error registers agree on each port's. -/
theorem State.sameErrors.errOf {s t : State} (h : s.sameErrors t) (x : Port) : t.errOf x = s.errOf x := by
  obtain ⟨hP, hC, hH⟩ := h
  cases x with
  | P => exact hP
  | C => exact hC
  | H => exact hH

/-- A command records its failure and otherwise leaves its port's error register, unless it is a `RESET` on port `H`. -/
theorem CommandEnds.stickyEffect {i : Instr} {s t : State} (h : CommandEnds i s t) (hi : i = .reset → s.port ≠ .H) :
    StickyEffect s.port s t := by
  cases h with
  | failed c h1 h7 => exact stickyEffect_raiseErr s h1 h7
  | succeeded hp count =>
    obtain ⟨-, ⟨-, -, -, hport, -⟩, -⟩ := blockUpdate_frame i s
    have hreset : i ≠ .reset := fun h => ne_reset_of_legalPort hp (hi h) h
    refine .inr ⟨fun r => State.status_of_respond_rspOf hport, ?_⟩
    rw [State.respond_errOf, (blockUpdate_sameErrors hreset s).errOf]

/-- Outside the cycle of a legal `RESET` every port's command records its failure (60_exceptions.md R125, R130 (b)). -/
theorem stickyEffect_portResult {s : State} {x : Port} (hb : s.boundaryRefusal x = none) (hr : s.resets = false) :
    StickyEffect x s (portResult x s) := by
  cases hx : s.presentedAt x with
  | none =>
    rw [portResult_idle hx]
    exact .inr ⟨by simp, State.setRsp_errOf ..⟩
  | some t =>
    change StickyEffect x (s.atPort x t.data) (portResult x s)
    cases hd : decode t.cmd with
    | error e =>
      rw [portResult_illegal hx hd]
      exact stickyEffect_raiseErr (s.atPort x t.data) (by decide) (by decide)
    | ok i =>
      rw [portResult_legal hx hd]
      refine (commandEnds_of_exec (exec_of_wellFormed (wellFormed_of_boundary hb hx hd))).stickyEffect ?_
      rintro rfl rfl
      simp [s.resets_iff.mpr (State.commandAt_eq_some.mpr ⟨t, hx, hd⟩)] at hr

/-- Any cycle but that of a legal `RESET` merges what the three ports leave (20_memory.md R52). -/
theorem cycleResult_eq_merge {s : State} (hr : s.resets = false) :
    cycleResult s = s.consume (merge s (portResult .P s) (portResult .C s) (portResult .H s)) := by
  rw [cycleResult, if_neg (by simp [hr])]

/-- Outside the cycle of a legal `RESET` a port's error register after the cycle is the one its command leaves. -/
theorem cycleResult_errOf {s : State} (hr : s.resets = false) (x : Port) :
    (cycleResult s).errOf x = (portResult x s).errOf x := by
  rw [cycleResult_eq_merge hr, consume_errOf, merge_errOf]

/-- Settles O15: the reset state's registers are clear, and in any other cycle each register is its own port's command's. -/
theorem stickyErrors : Obligations.StickyErrors := by
  intro s t x h
  constructor
  · intro hr
    obtain ⟨-, -, -, -, herr, -⟩ := resetState_sameBlock_of_step h hr
    rw [herr.errOf]
    cases x <;> rfl
  · intro hr
    obtain ⟨⟨-, -, hb⟩, rfl⟩ := step_next h
    rw [cycleResult_rspOf (.inl hr), cycleResult_errOf hr]
    exact stickyEffect_portResult (hb x) hr

/-- A port is answered `ABORTED` exactly when it presents something (60_exceptions.md R126). -/
theorem abortedResponse_eq_map (t : Option Transaction) :
    abortedResponse t = t.map fun _ => ⟨.aborted, 0#32, [], zeroDesc⟩ := by
  cases t <;> rfl

/-- Settles O29: the block is in its reset state, `RESET` is answered `OK`, and the other ports' answers are the aborted ones. -/
theorem resetAborts : Obligations.ResetAborts := by
  intro s t h hr
  refine ⟨resetState_sameBlock_of_step h hr, ?_⟩
  obtain ⟨-, rfl⟩ := step_next h
  obtain ⟨d, hd⟩ := portResult_reset hr
  rw [cycleResult, if_pos hr, hd, ← abortedResponse_eq_map, ← abortedResponse_eq_map]
  exact ⟨rfl, rfl, rfl⟩

/-- What the agents still present is no part of a port's answer or error register. -/
theorem State.withInputs_answer (s : State) (a b c : List (Option Transaction)) (x : Port) :
    (s.withInputs a b c).rspOf x = s.rspOf x ∧ (s.withInputs a b c).errOf x = s.errOf x := by
  cases x <;> exact ⟨rfl, rfl⟩

/-- Settles O38: of the sequences a port's command reads its own entry only, and what the port can write after the cycle is what its
command leaves. -/
theorem portsIndependent : Obligations.PortsIndependent := by
  intro s t t' x qP qC qH hr hr' hx h h'
  change (s.withInputs qP qC qH).resets = false at hr'
  obtain ⟨-, rfl⟩ := step_next h
  obtain ⟨-, rfl⟩ := step_next (s := s.withInputs qP qC qH) h'
  have hport : portResult x (s.withInputs qP qC qH) = (portResult x s).withInputs qP qC qH := portResult_withInputs hx
  obtain ⟨hrsp, herr⟩ := (portResult x s).withInputs_answer qP qC qH x
  rw [cycleResult_rspOf (.inl hr), cycleResult_rspOf (.inl hr'), cycleResult_errOf hr, cycleResult_errOf hr', hport]
  refine ⟨hrsp, herr, ?_, ?_⟩ <;> rintro rfl <;> rw [cycleResult_eq_merge hr, cycleResult_eq_merge hr']
  · exact ⟨(congrArg State.wr hport :), (congrArg State.mem hport :), (congrArg State.spanOpen hport :),
      (congrArg State.spanLen hport :)⟩
  · exact (congrArg State.rd hport :)

end Sys2Proof.Machine
end

section
/-! PROOF. Construction, reset and the end of a session (70_reset_and_hazards.md R140 to R144), and that every cycle answers every
port that presents a command (R155). -/

namespace Sys2Proof.Machine

/-- Settles O4: construction with a given length asks for that length beside what it asks for without one. -/
theorem segmentLength : Obligations.SegmentLength := by
  intro p l s
  rw [construct_eq_ok_iff, construct_none_eq_ok_iff, constructionError_eq_none, and_right_comm]
  simp only [Option.some.injEq, forall_eq']

/-- In the cycle of a legal `RESET` the other ports are answered with the aborted response (60_exceptions.md R126). -/
theorem cycleResult_rspOf_aborted {s : State} {x : Port} (hr : s.resets = true) (hx : x ≠ .H) :
    (cycleResult s).rspOf x = abortedResponse (s.presentedAt x) := by
  rw [cycleResult, if_pos hr, consume_rspOf]
  cases x with
  | P => rfl
  | C => rfl
  | H => exact absurd rfl hx

/-- A cycle answers exactly the ports that present something, `RESET` or not (30_encoding.md R64). -/
theorem isSome_cycleResult_rspOf (s : State) (x : Port) :
    ((cycleResult s).rspOf x).isSome = (s.presentedAt x).isSome := by
  by_cases h : s.resets = false ∨ x = .H
  · rw [cycleResult_rspOf h, portResult_rspOf]
  · obtain ⟨hr, hx⟩ := not_or.mp h
    rw [cycleResult_rspOf_aborted (by simpa using hr) hx, abortedResponse_eq_map, Option.isSome_map]

/-- A port that presents a transaction of the block, if anything, is not refused (30_encoding.md R60, R63). -/
theorem State.boundaryRefusal_eq_none {s : State} {x : Port}
    (h : ∀ t, s.presentedAt x = some t → t.data.length = writeLength t.cmd ∧ t.data.all (elemFits s.elemBytes) = true) :
    s.boundaryRefusal x = none := by
  cases hx : s.presentedAt x with
  | none => exact State.boundaryRefusal_of_idle hx
  | some t =>
    rw [State.boundaryRefusal, hx]
    exact (dataRefusal_eq_none ..).mpr (h t hx)

/-- Settles O39: nothing refuses the cycle, and its next state holds an answer for each port that presents something. -/
theorem everyCommandAnswered : Obligations.EveryCommandAnswered := by
  intro s hl ho ht
  exact ⟨cycleResult s, step_of_boundary hl ho fun x => State.boundaryRefusal_eq_none (ht x), isSome_cycleResult_rspOf s⟩

/-- A slot's byte is drawn where memory lists nothing (20_memory.md R43). -/
theorem State.segByte_of_mem_nil {s : State} (hE : 0 < s.elemBytes) (hm : s.mem = []) {a : Nat} (ha : 8 ≤ a) :
    s.segByte a = Config.draw s.port s.draws a := by
  rw [State.segByte, if_neg (by omega), if_neg (by omega), State.slot_of_mem_nil hE hm]
  rfl

/-- Settles O1: the registers are `ResetState()`'s by definition; with no byte listed every slot is unset and every byte past the
cursors drawn; and equal cursors leave no data, so that all the capacity is free. -/
theorem resetStateValues : Obligations.ResetStateValues := by
  intro s hl
  have hE : 0 < s.resetState.elemBytes := State.elemBytes_pos (s := s) hl
  have hread : s.resetState.availableRead = 0 := State.availableRead_of_eq s.slotCount_pos rfl
  have hwrite : s.resetState.availableWrite = s.cap := by rw [State.availableWrite, hread]; rfl
  exact ⟨rfl, rfl, fun i _ => State.slot_of_mem_nil hE rfl i, fun a ha _ => State.segByte_of_mem_nil hE rfl ha, rfl, rfl, rfl,
    rfl, rfl, ⟨rfl, rfl, rfl⟩, rfl, hread, hwrite⟩

/-- The source's own worked example is a legal block (95_test_vectors.md L1-1). -/
theorem configParams_legal : Config.params.legal = true := by decide

/-- Settles O2: legal parameters are what construction asks for, and the power-on state holds them and the reset values. -/
theorem powerOnIsReset : Obligations.PowerOnIsReset :=
  ⟨fun p hp => ⟨(construct_none_eq_ok_iff p _).mpr ⟨hp, rfl⟩, rfl, State.params_resetWith hp⟩, configParams_legal,
    (construct_none_eq_ok_iff _ _).mpr ⟨configParams_legal, rfl⟩⟩

/-- The power-on state of a legal block, which a reset keeps, meets the invariant (70_reset_and_hazards.md R141). -/
theorem State.resetWith_inv {p : Params} (h : p.legal = true) : (State.resetWith p).Inv :=
  State.resetState_inv (s := State.resetWith p) (by rwa [State.params_resetWith h])

/-- Starting a session hands the ports their programs and changes nothing of the block (70_reset_and_hazards.md R143). -/
theorem State.sameBlock_of_startSession {s t : State} {agents : List (Port × List (Option Transaction))}
    (h : s.startSession agents = .ok t) : s.sameBlock t := by
  unfold State.startSession at h
  split at h
  · obtain rfl := Except.ok.inj h
    exact ⟨rfl, rfl, rfl, ⟨rfl, rfl⟩, ⟨rfl, rfl, rfl⟩, rfl, rfl, rfl⟩
  · cases h

/-- Settles O5: construction admits legal parameters only, whose power-on state meets the invariant, and a session's start keeps the
block. -/
theorem invAtReset : Obligations.InvAtReset := by
  refine ⟨fun p agents s hc hs => ?_, State.resetWith_inv configParams_legal⟩
  obtain ⟨hp, -⟩ := (construct_none_eq_ok_iff p _).mp hc
  exact (State.resetWith_inv hp).of_sameBlock (State.sameBlock_of_startSession hs)

/-- The session is over when the three agents have nothing more to present (70_reset_and_hazards.md R144). -/
theorem State.sessionOver_iff (s : State) : s.sessionOver = true ↔ s.inP = [] ∧ s.inC = [] ∧ s.inH = [] := by
  simp only [State.sessionOver, Bool.and_eq_true, List.isEmpty_iff, and_assoc]

/-- Settles O41: a cycle's first check is of the parameters and its second of the session's end. -/
theorem noStep : Obligations.NoStep := by
  refine fun s => ⟨fun hl => ?_, fun hl hP hC hH => ?_⟩
  · rw [step_eq, State.cycleRefusal, if_pos hl]
  · rw [step_eq, State.cycleRefusal, if_neg (by simp [hl]), if_pos (s.sessionOver_iff.mpr ⟨hP, hC, hH⟩)]

end Sys2Proof.Machine
end
